-- ==== Sys2Proof/Word.lean ====
section
/-! DEFINITION. The two word types of FSC: the 8-bit byte of 00_scope.md R10 and the 32-bit command word of
30_encoding.md R80. Bit i is the bit of value 2^i (00_scope.md R12). -/

namespace Sys2Proof

/-- An 8-bit byte (00_scope.md R10). -/
abbrev Byte := BitVec 8

/-- A command word, always 32 bits (30_encoding.md R81). -/
abbrev Word := BitVec 32

end Sys2Proof
end

