-- ==== Sys2Proof/Syntax.lean ====
section
/-! DEFINITION. The commands of FSC-CMD v1: one constructor for each row of spec/opcode_table.json, whose operands are the
fields of the command word (30_encoding.md R82 to R88). -/

namespace Sys2Proof

/-- The fields of a SETINT word (format FI, 30_encoding.md R86): a present bit and a value for each part of an intent. -/
structure IntentWord where
  pp : Bool       -- preset present
  pv : BitVec 3   -- preset value, opaque
  tp : Bool       -- target temperature present
  tv : Byte       -- target temperature, °C
  sp : Bool       -- swing present
  sv : BitVec 2   -- Swing index
  fp : Bool       -- fan present
  fv : BitVec 2   -- Fan index
  mp : Bool       -- mode present
  mv : BitVec 3   -- Mode index; 6 and 7 name no mode
  deriving DecidableEq, Repr

/-- One command of FSC. -/
inductive Instr where
  /-- NOP (43_framer_control.md R216). -/
  | nop
  /-- FEED b, one received byte (40_frame_reader.md R121). -/
  | feed (b : Byte)
  /-- TICK, one timer period (40_frame_reader.md R131). -/
  | tick
  /-- HUNT, back to header search (40_frame_reader.md R133). -/
  | hunt
  /-- SETCFG with the new BEEPER_SILENT, DISPLAY_ON and CRC_EN (43_framer_control.md R212). -/
  | setcfg (bs don ce : Bool)
  /-- SETINT, submit an intent (42_record_codec.md R185). -/
  | setint (w : IntentWord)
  /-- CLRINT, clear the intent (42_record_codec.md R187). -/
  | clrint
  /-- DECODE the record of the received frame (42_record_codec.md R171, R172). -/
  | decode
  /-- ENCODE a control record (42_record_codec.md R190). -/
  | encode
  /-- BUILD an outbound frame: payload or none, message type, two argument bytes (43_framer_control.md R210). -/
  | build (pl : Bool) (ty a0 a1 : Byte)
  /-- RESET (43_framer_control.md R214). -/
  | reset
  /-- OP 0xB, reserved, with whatever bits 27:0 hold (43_framer_control.md R218). -/
  | reservedB (x : BitVec 28)
  /-- OP 0xC, reserved (43_framer_control.md R218). -/
  | reservedC (x : BitVec 28)
  /-- OP 0xD, reserved (43_framer_control.md R218). -/
  | reservedD (x : BitVec 28)
  /-- OP 0xE, reserved (43_framer_control.md R218). -/
  | reservedE (x : BitVec 28)
  /-- OP 0xF, reserved (43_framer_control.md R218). -/
  | reservedF (x : BitVec 28)
  deriving DecidableEq, Repr

end Sys2Proof
end

