-- ==== Sys2Proof/WellFormed.lean ====
section
/-! DEFINITION. Which commands are well formed: the conditions of 30_encoding.md R89 (c) and (d), the only ones that are not
settled by the widths of the fields. -/

namespace Sys2Proof

/-- R89 (c): with MP = 1 the mode index names a mode, so it is neither 6 nor 7. -/
def IntentWord.modeOk (w : IntentWord) : Bool := !w.mp || decide (w.mv.toNat < 6)

/-- R89 (d) for one field of an intent: a field whose present bit is 0 has the value 0. -/
def absentIsZero {n : Nat} (present : Bool) (v : BitVec n) : Bool := present || v == 0#n

/-- A SETINT operand that 30_encoding.md R89 does not call ILLEGAL. -/
def IntentWord.wf (w : IntentWord) : Bool :=
  w.modeOk && absentIsZero w.mp w.mv && absentIsZero w.fp w.fv && absentIsZero w.sp w.sv
    && absentIsZero w.tp w.tv && absentIsZero w.pp w.pv

/-- A well-formed command. -/
def WellFormed : Instr → Bool
  | .nop => true
  | .feed _ => true
  | .tick => true
  | .hunt => true
  | .setcfg _ _ _ => true
  | .setint w => w.wf
  | .clrint => true
  | .decode => true
  | .encode => true
  | .build _ _ _ _ => true
  | .reset => true
  | .reservedB _ => true
  | .reservedC _ => true
  | .reservedD _ => true
  | .reservedE _ => true
  | .reservedF _ => true

end Sys2Proof
end

