-- ==== Sys2Proof/Decode.lean ====
section
/-! DEFINITION. The decoder of a command word (30_encoding.md R81 to R89), total on every 32-bit word and rejecting by name,
and the encoder written from the same formats. -/

namespace Sys2Proof

/-- Why a word is ILLEGAL (30_encoding.md R89). R89 (a), a reserved opcode, is not here: those words are the rows
RESERVED_B to RESERVED_F of the opcode table and decode to their constructors. -/
inductive Illegal where
  /-- R89 (b): a bit that the word's format marks reserved is 1. -/
  | reservedBit
  /-- R89 (c): MP = 1 and MV is 6 or 7. -/
  | modeValue
  /-- R89 (d): a present bit is 0 and its value field is not 0. -/
  | absentValue
  deriving DecidableEq, Repr

/-- Bits `lo + n - 1` down to `lo` of a word. -/
def field (w : Word) (lo n : Nat) : BitVec n := w.extractLsb' lo n

/-- One bit of a word. -/
def flag (w : Word) (i : Nat) : Bool := w.getLsbD i

/-- Format F0 (30_encoding.md R83): bits 27:0 must be 0. -/
def decodeF0 (w : Word) (i : Instr) : Except Illegal Instr :=
  if field w 0 28 = 0#28 then .ok i else .error .reservedBit

/-- Format FB (30_encoding.md R84): bits 27:8 must be 0, B is bits 7:0. -/
def decodeFB (w : Word) : Except Illegal Instr :=
  if field w 8 20 = 0#20 then .ok (.feed (field w 0 8)) else .error .reservedBit

/-- Format FC (30_encoding.md R85): bits 27:3 must be 0, BS, DO and CE are bits 2, 1 and 0. -/
def decodeFC (w : Word) : Except Illegal Instr :=
  if field w 3 25 = 0#25 then .ok (.setcfg (flag w 2) (flag w 1) (flag w 0)) else .error .reservedBit

/-- The fields of format FI (30_encoding.md R86). -/
def intentWord (w : Word) : IntentWord where
  pp := flag w 24
  pv := field w 21 3
  tp := flag w 20
  tv := field w 12 8
  sp := flag w 10
  sv := field w 8 2
  fp := flag w 6
  fv := field w 4 2
  mp := flag w 3
  mv := field w 0 3

/-- Format FI (30_encoding.md R86): bits 27:25, 11 and 7 must be 0, and the fields meet R89 (c) and (d). -/
def decodeFI (w : Word) : Except Illegal Instr :=
  if field w 25 3 ≠ 0#3 ∨ flag w 11 = true ∨ flag w 7 = true then .error .reservedBit
  else if (intentWord w).modeOk = false then .error .modeValue
  else if (intentWord w).wf = false then .error .absentValue
  else .ok (.setint (intentWord w))

/-- Format FT (30_encoding.md R87): bits 27:25 must be 0. -/
def decodeFT (w : Word) : Except Illegal Instr :=
  if field w 25 3 = 0#3 then .ok (.build (flag w 24) (field w 16 8) (field w 8 8) (field w 0 8))
  else .error .reservedBit

/-- The opcode map (30_encoding.md R82): OP is bits 31:28, and all 16 values appear. -/
def decode (w : Word) : Except Illegal Instr :=
  match (field w 28 4).toNat with
  | 0x0 => decodeF0 w .nop
  | 0x1 => decodeFB w
  | 0x2 => decodeF0 w .tick
  | 0x3 => decodeF0 w .hunt
  | 0x4 => decodeFC w
  | 0x5 => decodeFI w
  | 0x6 => decodeF0 w .clrint
  | 0x7 => decodeF0 w .decode
  | 0x8 => decodeF0 w .encode
  | 0x9 => decodeFT w
  | 0xA => decodeF0 w .reset
  | 0xB => .ok (.reservedB (field w 0 28))
  | 0xC => .ok (.reservedC (field w 0 28))
  | 0xD => .ok (.reservedD (field w 0 28))
  | 0xE => .ok (.reservedE (field w 0 28))
  | _ => .ok (.reservedF (field w 0 28))

/-! ## The encoder -/

/-- One bit as a field of width 1. -/
def bit (b : Bool) : BitVec 1 := BitVec.ofBool b

/-- Format F0 with opcode `op` (30_encoding.md R83). -/
def encodeF0 (op : BitVec 4) : Word := op ++ 0#28

/-- The word of a command (30_encoding.md R82 to R88). -/
def encode : Instr → Word
  | .nop => encodeF0 0x0#4
  | .feed b => 0x1#4 ++ 0#20 ++ b
  | .tick => encodeF0 0x2#4
  | .hunt => encodeF0 0x3#4
  | .setcfg bs don ce => 0x4#4 ++ 0#25 ++ bit bs ++ bit don ++ bit ce
  | .setint w =>
    0x5#4 ++ 0#3 ++ bit w.pp ++ w.pv ++ bit w.tp ++ w.tv ++ 0#1 ++ bit w.sp ++ w.sv ++ 0#1 ++ bit w.fp ++ w.fv
      ++ bit w.mp ++ w.mv
  | .clrint => encodeF0 0x6#4
  | .decode => encodeF0 0x7#4
  | .encode => encodeF0 0x8#4
  | .build pl ty a0 a1 => 0x9#4 ++ 0#3 ++ bit pl ++ ty ++ a0 ++ a1
  | .reset => encodeF0 0xA#4
  | .reservedB x => 0xB#4 ++ x
  | .reservedC x => 0xC#4 ++ x
  | .reservedD x => 0xD#4 ++ x
  | .reservedE x => 0xE#4 ++ x
  | .reservedF x => 0xF#4 ++ x

/-! ## The host's view of the decoder -/

/-- The command word whose bits are `w`, numbered as spec/opcode_table.json numbers them; the bits from `nbits` up are 0.
A command is one 32-bit word that the port delivers whole (30_encoding.md R80, R81), so no byte order arises. -/
def tableWord (nbits w : Nat) : Word := BitVec.ofNat 32 (w % 2 ^ nbits)

/-- The command `decode` reads from the word whose bits are `w`. -/
def decodeTableWord (nbits w : Nat) : Option Instr :=
  match decode (tableWord nbits w) with
  | .ok i => some i
  | .error _ => none

end Sys2Proof
end

