-- ==== Sys2Proof/Config.lean ====
section
/-! DEFINITION. The parameters of an FSC (00_scope.md R7): the constants the source fixes, and the OPEN parameters, which
are an argument of the model (00_scope.md R19) and stay what they are for the whole life of one FSC (10_state.md R20). -/

namespace Sys2Proof

/-! ## The enumerations of the codec (00_scope.md R17) -/

/-- The operating modes, in the source's order (00_scope.md R17). -/
inductive Mode where
  | off | auto | cool | heat | dry | fanOnly
  deriving DecidableEq, Repr

/-- The fan speeds, in the source's order (00_scope.md R17). -/
inductive Fan where
  | auto | low | mid | high
  deriving DecidableEq, Repr

/-- The swing settings, in the source's order (00_scope.md R17). -/
inductive Swing where
  | off | vertical | horizontal | both
  deriving DecidableEq, Repr

/-! ## The fixed parameters (00_scope.md R7) -/

/-- MARKER = 0xFF. -/
def marker : Byte := 0xFF#8

/-- LEN_MIN = 8, the least length byte the reader accepts. -/
def lenMin : Nat := 8

/-- REC_SIZE = 24, the bytes of a record. -/
def recSize : Nat := 24

/-- HDR_SIZE = 10, the frame bytes before the payload. -/
def hdrSize : Nat := 10

/-- PREFIX = 00 00 00 00 00 01, frame bytes 1 to 6 of a built frame. -/
def prefixBytes : List Byte := [0x00#8, 0x00#8, 0x00#8, 0x00#8, 0x00#8, 0x01#8]

/-! ## The OPEN parameters -/

/-- A single bit of a record: bit `bit` of payload byte `off` (30_encoding.md R96). -/
structure BitPos where
  off : Fin 24
  bit : Fin 8
  deriving DecidableEq, Repr

/-- Where SWING_BOTH stands: a whole byte or one bit (30_encoding.md R96, R99). -/
inductive BothPos where
  | byte (off : Fin 24)
  | bit (pos : BitPos)
  deriving DecidableEq, Repr

/-- LAYOUT: where the fields of a record stand (30_encoding.md R96). -/
structure Layout where
  roomTemp  : Fin 24
  mode      : Fin 24
  fan       : Fin 24
  setpoint  : Fin 24
  swingBoth : BothPos
  power     : BitPos
  swingV    : BitPos
  swingH    : BitPos
  display   : BitPos
  beeper    : BitPos
  deriving DecidableEq, Repr

/-- MODE_CODE: the wire code of every mode but OFF, which has none (30_encoding.md R98). -/
structure ModeCodes where
  auto    : Byte
  cool    : Byte
  heat    : Byte
  dry     : Byte
  fanOnly : Byte
  deriving DecidableEq, Repr

/-- FAN_CODE: the wire code of every fan speed (30_encoding.md R98). -/
structure FanCodes where
  auto : Byte
  low  : Byte
  mid  : Byte
  high : Byte
  deriving DecidableEq, Repr

/-- The OPEN parameters of 00_scope.md R7. -/
structure Config where
  maxFrameSize : Nat
  intraTimeout : Nat
  bias         : Nat
  tempMin      : Nat
  tempMax      : Nat
  layout       : Layout
  modeCode     : ModeCodes
  fanCode      : FanCodes
  deriving DecidableEq, Repr

/-- LEN_MAX = min(MAX_FRAME_SIZE − 3, 255) (00_scope.md R7). -/
def Config.lenMax (c : Config) : Nat := min (c.maxFrameSize - 3) 255

/-- The cells of RX and of TX: MAX_FRAME_SIZE + 2 (20_memory.md R60). -/
def Config.bufSize (c : Config) : Nat := c.maxFrameSize + 2

/-! ## The constraints on the parameters -/

/-- The eight bits of byte `o` of a record. -/
def byteBits (o : Fin 24) : List BitPos := (List.finRange 8).map fun b => ⟨o, b⟩

/-- The bits SWING_BOTH covers. -/
def BothPos.bits : BothPos → List BitPos
  | .byte o => byteBits o
  | .bit p => [p]

/-- Every record bit that some field of the layout covers; all other bits are reserved (30_encoding.md R96). -/
def Layout.bits (l : Layout) : List BitPos :=
  byteBits l.roomTemp ++ byteBits l.mode ++ byteBits l.fan ++ byteBits l.setpoint ++ l.swingBoth.bits
    ++ [l.power, l.swingV, l.swingH, l.display, l.beeper]

/-- "No two fields share a bit, and no bit field lies inside a byte field" (30_encoding.md R96). -/
abbrev Layout.Wf (l : Layout) : Prop := l.bits.Nodup

/-- MODE_CODE is injective (30_encoding.md R98). -/
abbrev ModeCodes.Wf (m : ModeCodes) : Prop := [m.auto, m.cool, m.heat, m.dry, m.fanOnly].Nodup

/-- FAN_CODE is injective (30_encoding.md R98). -/
abbrev FanCodes.Wf (f : FanCodes) : Prop := [f.auto, f.low, f.mid, f.high].Nodup

/-- The constraints of 00_scope.md R7 on the OPEN parameters. -/
abbrev Config.Wf (c : Config) : Prop :=
  37 ≤ c.maxFrameSize ∧ 1 ≤ c.intraTimeout ∧ c.bias ≤ 255 ∧ c.tempMin ≤ c.tempMax ∧ c.tempMax ≤ 255
    ∧ c.layout.Wf ∧ c.modeCode.Wf ∧ c.fanCode.Wf

/-! ## The reference values -/

/-- REF_LAYOUT (30_encoding.md R97). PRESUMED (its positions are general knowledge, log 1). -/
def Layout.reference : Layout where
  roomTemp := 2
  mode := 6
  fan := 8
  setpoint := 23
  swingBoth := .byte 10
  power := ⟨11, 1⟩
  swingV := ⟨13, 2⟩
  swingH := ⟨13, 1⟩
  display := ⟨13, 3⟩
  beeper := ⟨13, 7⟩

/-- The reference wire codes of the modes (30_encoding.md R98). PRESUMED (log 1). -/
def ModeCodes.reference : ModeCodes where
  auto := 0x00#8
  cool := 0x01#8
  heat := 0x02#8
  fanOnly := 0x03#8
  dry := 0x04#8

/-- The reference wire codes of the fan speeds (30_encoding.md R98). PRESUMED (log 1). -/
def FanCodes.reference : FanCodes where
  high := 0x00#8
  mid := 0x01#8
  low := 0x02#8
  auto := 0x03#8

/-- The test value of every OPEN parameter (00_scope.md R7). DESIGN CHOICE (log 1): the parameters `State.reset` carries.
Statements about every state hold whatever the parameters are. -/
def Config.reference : Config where
  maxFrameSize := 64
  intraTimeout := 3
  bias := 16
  tempMin := 16
  tempMax := 30
  layout := .reference
  modeCode := .reference
  fanCode := .reference

end Sys2Proof
end

