-- ==== Sys2Proof/Machine/State.lean ====
section
/-! DEFINITION. The state of FSC (10_state.md R20), what can stop the model, and the state after reset (10_state.md R46). -/

namespace Sys2Proof.Machine

/-- One byte buffer of 20_memory.md R60: its cells that hold a value, as (index, byte) pairs with strictly rising indices.
A cell that is not listed is ⊥, it has no value (00_scope.md R14). -/
abbrev Memory := List Host.Cell

/-- The names of the four buffers (20_memory.md R60). -/
inductive BufferName where
  | rx | base | txp | tx
  deriving DecidableEq, Repr

/-- RSTATE, the control state of the frame reader (10_state.md R23). -/
inductive RState where
  /-- No frame in progress; `m` consecutive markers seen, saturating at 2. -/
  | hunt (m : Fin 3)
  /-- A frame is being accumulated; the next byte goes to RX[i]. -/
  | body (i : Nat)
  /-- The checksum matched and the CRC is awaited; the next byte goes to RX[RXN + 1 + k]. -/
  | crcb (k : Fin 2)
  deriving DecidableEq, Repr

/-- The events a command can end with (60_exceptions.md R241). -/
inductive Event where
  | none | incomplete | frameReady | resyncBadLength | resyncChecksum | resyncCrc | resyncTimeout
  | decoded | structureError | noFrame | encoded | encodeRejected | built | noPayload | tooLong
  | intentSet | intentIgnored | intentCleared | cfgSet | resetDone | illegal
  deriving DecidableEq, Repr

/-- The decoded status record (10_state.md R37). -/
structure StatusRecord where
  roomTemp     : Byte
  target       : Nat
  mode         : Option Mode
  fan          : Option Fan
  swing        : Swing
  displayOn    : Bool
  beeperSilent : Bool
  power        : Bool
  deriving DecidableEq, Repr

/-- The pending intent (10_state.md R35). -/
structure Intent where
  mode   : Option Mode
  fan    : Option Fan
  swing  : Option Swing
  temp   : Option Byte
  preset : Option (BitVec 3)
  deriving DecidableEq, Repr

/-- EMPTY_INTENT: every field none (42_record_codec.md R190). -/
def Intent.empty : Intent where
  mode := none
  fan := none
  swing := none
  temp := none
  preset := none

/-- Why the model stops. FSC itself never does (60_exceptions.md R240): in every state that satisfies `FscInv` (Safety.lean)
none of these is raised. -/
inductive Fault where
  /-- A read of a ⊥ byte, which a model must stop at (00_scope.md R14). Raised by FEED, DECODE, ENCODE and BUILD. Safe. -/
  | noValue (buffer : BufferName)
  /-- An access to an index that is no cell of the buffer (20_memory.md R60). Raised by FEED. Safe. -/
  | noSuchCell (buffer : BufferName) (index : Nat)
  /-- RSTATE = BODY(i) with i > RXN, for which 40_frame_reader.md R121 gives no case. Raised by FEED. Safe. -/
  | readerOutsideRules
  deriving DecidableEq, Repr

/-- Why the model gives a command no meaning. -/
inductive Refusal where
  /-- The command has no meaning yet. Raised by `exec`'s refused arms; there is none. Safe. -/
  | notModelled (mnemonic : String)
  deriving DecidableEq, Repr

/-- The state of FSC: the tuple of 10_state.md R20, and two fields of the model's own, `config` and `port`. -/
structure State where
  /-- RSTATE (R23). -/
  rstate    : RState
  /-- IDLE, the intra-packet idle counter (R24). -/
  idle      : Nat
  /-- RXN, the length byte of the frame accumulated last or now (R25). -/
  rxn       : Byte
  /-- SUM, its running checksum (R25). -/
  sum       : Byte
  /-- CRC_L, CFG.CRC_EN as latched for this frame (R26). -/
  crcL      : Bool
  /-- RX_VALID (R29). -/
  rxValid   : Bool
  /-- RX_CRC (R30). -/
  rxCrc     : Bool
  /-- RX, the receive buffer (20_memory.md R60). -/
  rx        : Memory
  /-- CFG (R27): bit 0 CRC_EN, bit 1 DISPLAY_ON, bit 2 BEEPER_SILENT, bits 7:3 read as 0. -/
  cfg       : Byte
  /-- BASE_VALID (R31). -/
  baseValid : Bool
  /-- BASE, the last known status record (20_memory.md R60). -/
  base      : Memory
  /-- MODE (R32). -/
  mode      : Option Mode
  /-- FAN (R33). -/
  fan       : Option Fan
  /-- FAN_FO, the last fan speed seen in fan-only mode (R34). -/
  fanFo     : Option Fan
  /-- FAN_OTHER, the last fan speed seen in all other modes (R34). -/
  fanOther  : Option Fan
  /-- STATUS (R37). -/
  status    : Option StatusRecord
  /-- INTENT (R35). -/
  intent    : Intent
  /-- INT_VALID (R36). -/
  intValid  : Bool
  /-- TXP_VALID (R38). -/
  txpValid  : Bool
  /-- TXP, the control record built by ENCODE (20_memory.md R60). -/
  txp       : Memory
  /-- ENC_FLAGS (R39): bit 0 FAN_REJ, bit 1 TEMP_REJ. -/
  encFlags  : BitVec 2
  /-- TX_VALID (R40). -/
  txValid   : Bool
  /-- TXLEN (R40). -/
  txlen     : Nat
  /-- TX, the outbound frame, markers included (20_memory.md R60). -/
  tx        : Memory
  /-- EVT, the code of the event of the last command (R41). -/
  evt       : Byte
  /-- The MODEL's own: the parameters of this FSC (00_scope.md R7, R19), which no step changes. Log 1. -/
  config    : Config
  /-- The MODEL's own: the command words the host has issued and FSC has not yet taken, oldest first (30_encoding.md R80,
  20_memory.md R71). Log 2. -/
  port      : List Word
  deriving DecidableEq, Repr

/-- RESET_STATE of 10_state.md R46, for an FSC with parameters `c` and no command pending. -/
def State.resetWith (c : Config) : State where
  rstate := .hunt 0
  idle := 0
  rxn := 0x00#8
  sum := 0x00#8
  crcL := false
  rxValid := false
  rxCrc := false
  rx := []
  cfg := 0x00#8
  baseValid := false
  base := []
  mode := none
  fan := none
  fanFo := none
  fanOther := none
  status := none
  intent := .empty
  intValid := false
  txpValid := false
  txp := []
  encFlags := 0b00#2
  txValid := false
  txlen := 0
  tx := []
  evt := 0x13#8
  config := c
  port := []

/-- The machine right after power-on reset (43_framer_control.md R215, 10_state.md R46). Its parameters are the test values of
00_scope.md R7. DESIGN CHOICE (log 1). -/
def State.reset : State := State.resetWith Config.reference

end Sys2Proof.Machine
end

