-- ==== Sys2Proof/Machine/Flags.lean ====
section
/-! DEFINITION. The registers the host reads as bits: the event codes of EVT (60_exceptions.md R241), the fields of CFG
(10_state.md R27), ENC_FLAGS (R39) and the view STAT (R42). -/

namespace Sys2Proof.Machine

/-- The code of an event (60_exceptions.md R241). -/
def Event.code : Event → Byte
  | .none => 0x00#8
  | .incomplete => 0x01#8
  | .frameReady => 0x02#8
  | .resyncBadLength => 0x03#8
  | .resyncChecksum => 0x04#8
  | .resyncCrc => 0x05#8
  | .resyncTimeout => 0x06#8
  | .decoded => 0x07#8
  | .structureError => 0x08#8
  | .noFrame => 0x09#8
  | .encoded => 0x0A#8
  | .encodeRejected => 0x0B#8
  | .built => 0x0C#8
  | .noPayload => 0x0D#8
  | .tooLong => 0x0E#8
  | .intentSet => 0x0F#8
  | .intentIgnored => 0x10#8
  | .intentCleared => 0x11#8
  | .cfgSet => 0x12#8
  | .resetDone => 0x13#8
  | .illegal => 0x14#8

/-- `emit E`: a command ends by writing the code of its event to EVT (00_scope.md R13, 10_state.md R41). -/
def emit (e : Event) (s : State) : State := { s with evt := e.code }

/-- CFG.CRC_EN (10_state.md R27). -/
def State.crcEn (s : State) : Bool := s.cfg.getLsbD 0

/-- CFG.DISPLAY_ON (10_state.md R27). -/
def State.displayOn (s : State) : Bool := s.cfg.getLsbD 1

/-- CFG.BEEPER_SILENT (10_state.md R27). -/
def State.beeperSilent (s : State) : Bool := s.cfg.getLsbD 2

/-- zext_8 of the three configuration bits BS, DO, CE (43_framer_control.md R212). -/
def cfgByte (bs don ce : Bool) : Byte := 0#5 ++ BitVec.ofBool bs ++ BitVec.ofBool don ++ BitVec.ofBool ce

/-- ENC_FLAGS with TEMP_REJ as bit 1 and FAN_REJ as bit 0 (10_state.md R39). -/
def encFlagsOf (tempRej fanRej : Bool) : BitVec 2 := BitVec.ofBool tempRej ++ BitVec.ofBool fanRej

/-- STAT.IN_FRAME: RSTATE is BODY or CRCB (10_state.md R42). -/
def State.inFrame (s : State) : Bool :=
  match s.rstate with
  | .hunt _ => false
  | .body _ => true
  | .crcb _ => true

/-- STAT, the read-only view of the status flags (10_state.md R42); bit 7 reads as 0. -/
def State.stat (s : State) : Byte :=
  0#1 ++ BitVec.ofBool s.inFrame ++ BitVec.ofBool s.txValid ++ BitVec.ofBool s.txpValid ++ BitVec.ofBool s.intValid
    ++ BitVec.ofBool s.baseValid ++ BitVec.ofBool s.rxCrc ++ BitVec.ofBool s.rxValid

end Sys2Proof.Machine
end

