-- ==== Sys2Proof/Machine/Ops.lean ====
section
/-! DEFINITION. The operations over the byte buffers (20_memory.md R60 to R68), and what stands in FSC where another machine
takes an exception: an error is an event code in EVT and nothing more (60_exceptions.md R240, R246), there is no trap entry
and no return from one (R247). -/

namespace Sys2Proof.Machine

/-- Is `lo` at most every index listed, and are the indices strictly rising? -/
def risingFrom (lo : Nat) : Memory → Bool
  | [] => true
  | (a, _) :: m => decide (lo ≤ a) && risingFrom (a + 1) m

/-- The canonical form of a buffer: strictly rising indices. An unlisted cell has no value, so no entry can repeat what an
unlisted cell reads as. -/
def Memory.wf (m : Memory) : Bool := risingFrom 0 m

/-- Every listed index is a cell of a buffer of `size` cells (20_memory.md R60). -/
def Memory.within (size : Nat) (m : Memory) : Bool := m.all fun c => decide (c.1 < size)

/-- The byte at an index, or no value (⊥). -/
def Memory.read : Memory → Nat → Option Byte
  | [], _ => none
  | (a, v) :: m, i => if a = i then some v else Memory.read m i

/-- A buffer with one byte written. -/
def Memory.write : Memory → Nat → Byte → Memory
  | [], i, b => [(i, b)]
  | (a, v) :: m, i, b =>
    if i < a then (i, b) :: (a, v) :: m
    else if i = a then (i, b) :: m
    else (a, v) :: Memory.write m i b

/-- `X[i ..] <- bytes`: the bytes written one after another from index `i` up. -/
def Memory.writeAll : Memory → Nat → List Byte → Memory
  | m, _, [] => m
  | m, i, b :: bs => Memory.writeAll (m.write i b) (i + 1) bs

/-- `X[i .. i + n - 1]` (00_scope.md R13), or nothing when one of the cells is ⊥. -/
def Memory.readAll (m : Memory) (i : Nat) : Nat → Option (List Byte)
  | 0 => some []
  | n + 1 =>
    match m.read i, Memory.readAll m (i + 1) n with
    | some b, some bs => some (b :: bs)
    | _, _ => none

/-- A record of 24 bytes (30_encoding.md R96), while a command works on it. -/
abbrev Record := Fin 24 → Byte

/-- The bytes of a record in order. -/
def Record.bytes (p : Record) : List Byte := List.ofFn p

/-- The record in cells `at0 .. at0 + 23` of a buffer, or nothing when one of them is ⊥. -/
def Memory.readRecord (m : Memory) (at0 : Nat) : Option Record :=
  if h : ∀ j : Fin 24, (m.read (at0 + j.val)).isSome = true then
    some fun j => (m.read (at0 + j.val)).get (h j)
  else none

/-- `RX[i] <- b` and then the rest of the command. An index past MAX_FRAME_SIZE + 1 is no cell of RX (20_memory.md R60). -/
def storeRx (i : Nat) (b : Byte) (s : State) (rest : State → Host.Outcome State Fault Refusal) :
    Host.Outcome State Fault Refusal :=
  if i < s.config.bufSize then rest { s with rx := s.rx.write i b } else .fault (.noSuchCell .rx i)

/-- What an ILLEGAL word does: EVT <- ILLEGAL and nothing else (43_framer_control.md R217). -/
def illegal (s : State) : Host.Outcome State Fault Refusal := .next (emit .illegal s)

end Sys2Proof.Machine
end

