-- ==== Sys2Proof/Machine/Operands.lean ====
section
/-! DEFINITION. The operands of the commands: the parts of an intent (30_encoding.md R86, R88), the fields of a record
(30_encoding.md R96, R99) and the wire codes (30_encoding.md R98). -/

namespace Sys2Proof.Machine

/-! ## Indices of a command word (00_scope.md R17) -/

/-- Mode(MV); 6 and 7 name no mode. -/
def modeOfIndex (v : BitVec 3) : Option Mode :=
  match v.toNat with
  | 0 => some .off
  | 1 => some .auto
  | 2 => some .cool
  | 3 => some .heat
  | 4 => some .dry
  | 5 => some .fanOnly
  | _ => none

/-- Fan(FV). -/
def fanOfIndex (v : BitVec 2) : Fan :=
  match v.toNat with
  | 0 => .auto
  | 1 => .low
  | 2 => .mid
  | _ => .high

/-- Swing(SV). -/
def swingOfIndex (v : BitVec 2) : Swing :=
  match v.toNat with
  | 0 => .off
  | 1 => .vertical
  | 2 => .horizontal
  | _ => .both

/-- The intent a SETINT word submits (42_record_codec.md R185): a part is present exactly when its present bit is 1. -/
def intentOf (w : IntentWord) : Intent where
  mode := if w.mp then modeOfIndex w.mv else none
  fan := if w.fp then some (fanOfIndex w.fv) else none
  swing := if w.sp then some (swingOfIndex w.sv) else none
  temp := if w.tp then some w.tv else none
  preset := if w.pp then some w.pv else none

/-! ## The bits of a record (00_scope.md R13) -/

/-- `getbit(p, F)`. -/
def getBit (p : Record) (f : BitPos) : Bool := (p f.off).getLsbD f.bit.val

/-- The byte with value `2^k`. -/
def bitMask (k : Fin 8) : Byte := 1#8 <<< k.val

/-- A byte with bit `k` set to `v` and the other seven bits as they are. -/
def withBit (b : Byte) (k : Fin 8) (v : Bool) : Byte :=
  if v then b ||| bitMask k else b &&& ~~~(bitMask k)

/-- `p[o] <- v`. -/
def setByte (p : Record) (o : Fin 24) (v : Byte) : Record := fun j => if j = o then v else p j

/-- `setbit(p, F, v)`. -/
def setBit (p : Record) (f : BitPos) (v : Bool) : Record := setByte p f.off (withBit (p f.off) f.bit v)

/-- `both(p)`: a SWING_BOTH byte is set when it is not 0x00, a SWING_BOTH bit when it is 1 (30_encoding.md R99). -/
def getBoth (p : Record) : BothPos → Bool
  | .byte o => p o != 0x00#8
  | .bit f => getBit p f

/-- `both(p) <- v`: a byte is written 0x01 or 0x00, a bit as it is (30_encoding.md R99). -/
def setBoth (p : Record) (f : BothPos) (v : Bool) : Record :=
  match f with
  | .byte o => setByte p o (if v then 0x01#8 else 0x00#8)
  | .bit f => setBit p f v

/-! ## Wire codes (30_encoding.md R98) -/

/-- MODE_CODE(m); OFF has no code. -/
def modeCode (c : ModeCodes) : Mode → Option Byte
  | .off => none
  | .auto => some c.auto
  | .cool => some c.cool
  | .heat => some c.heat
  | .dry => some c.dry
  | .fanOnly => some c.fanOnly

/-- MODE_CODE⁻¹(x), when x is in the image of MODE_CODE. -/
def modeOfCode (c : ModeCodes) (x : Byte) : Option Mode :=
  if x = c.auto then some .auto
  else if x = c.cool then some .cool
  else if x = c.heat then some .heat
  else if x = c.dry then some .dry
  else if x = c.fanOnly then some .fanOnly
  else none

/-- FAN_CODE(f). -/
def fanCode (c : FanCodes) : Fan → Byte
  | .auto => c.auto
  | .low => c.low
  | .mid => c.mid
  | .high => c.high

/-- FAN_CODE⁻¹(x), when x is in the image of FAN_CODE. -/
def fanOfCode (c : FanCodes) (x : Byte) : Option Fan :=
  if x = c.auto then some .auto
  else if x = c.low then some .low
  else if x = c.mid then some .mid
  else if x = c.high then some .high
  else none

/-! ## The received frame -/

/-- P, the payload length of the received frame (30_encoding.md R95). -/
def payloadLen (s : State) : Nat := if 10 ≤ s.rxn.toNat then s.rxn.toNat - 10 else 0

end Sys2Proof.Machine
end

