-- ==== Sys2Proof/Machine/Codec.lean ====
section
/-! DEFINITION. The record codec: DECODE, SETINT, CLRINT and ENCODE (42_record_codec.md). -/

namespace Sys2Proof.Machine

/-! ## DECODE -/

/-- decode_mode (42_record_codec.md R173): the mode after a status with this record, when it was `old` before. -/
def decodeMode (c : Config) (p : Record) (old : Option Mode) : Option Mode :=
  if getBit p c.layout.power = false then some .off
  else
    match modeOfCode c.modeCode (p c.layout.mode) with
    | some m => some m
    | none => old

/-- decode_swing (42_record_codec.md R175): BOTH takes precedence, then VERTICAL. -/
def decodeSwing (l : Layout) (p : Record) : Swing :=
  if getBoth p l.swingBoth then .both
  else if getBit p l.swingV then .vertical
  else if getBit p l.swingH then .horizontal
  else .off

/-- remember_fan (42_record_codec.md R176): MODE is that of the same status. -/
def rememberFan (f : Fan) (s : State) : State :=
  if s.mode = some .fanOnly then { s with fanFo := some f } else { s with fanOther := some f }

/-- decode_fan (42_record_codec.md R174): an unmapped code changes nothing. -/
def decodeFan (p : Record) (s : State) : State :=
  match fanOfCode s.config.fanCode (p s.config.layout.fan) with
  | some f => rememberFan f { s with fan := some f }
  | none => s

/-- The StatusRecord of a record, with the mode and fan the decode left (42_record_codec.md R172, R177). -/
def statusOf (p : Record) (s : State) : StatusRecord where
  roomTemp := p s.config.layout.roomTemp
  target := (p s.config.layout.setpoint).toNat + s.config.bias
  mode := s.mode
  fan := s.fan
  swing := decodeSwing s.config.layout p
  displayOn := getBit p s.config.layout.display
  beeperSilent := getBit p s.config.layout.beeper
  power := getBit p s.config.layout.power

/-- The mode and fan registers after the record `p`: decode_mode, then decode_fan (42_record_codec.md R172). -/
def decodeRegs (p : Record) (s : State) : State := decodeFan p { s with mode := decodeMode s.config p s.mode }

/-- DECODE with a whole record `p` (42_record_codec.md R172). -/
def decodeRecord (p : Record) (s : State) : State :=
  let t := decodeRegs p s
  emit .decoded { t with status := some (statusOf p t), base := t.base.writeAll 0 p.bytes, baseValid := true }

/-- DECODE (42_record_codec.md R171, R172). -/
def execDecode (s : State) : Host.Outcome State Fault Refusal :=
  if s.rxValid = false then .next (emit .noFrame s)
  else if payloadLen s < recSize then .next (emit .structureError s)
  else
    match s.rx.readRecord hdrSize with
    | some p => .next (decodeRecord p s)
    | none => .fault (.noValue .rx)

/-! ## SETINT and CLRINT -/

/-- SETINT (42_record_codec.md R185): the intent is replaced whole, and only when a status has been decoded. A SETINT whose
operand 30_encoding.md R89 calls ILLEGAL is no command: it does what an ILLEGAL word does (log 9). -/
def execSetint (w : IntentWord) (s : State) : Host.Outcome State Fault Refusal :=
  if w.wf = false then illegal s
  else if s.baseValid = false then .next (emit .intentIgnored s)
  else .next (emit .intentSet { s with intent := intentOf w, intValid := true })

/-- CLRINT (42_record_codec.md R187). -/
def execClrint (s : State) : Host.Outcome State Fault Refusal :=
  .next (emit .intentCleared { s with intent := .empty, intValid := false })

/-! ## ENCODE -/

/-- The intent ENCODE applies: INTENT when INT_VALID, else EMPTY_INTENT (42_record_codec.md R190). -/
def activeIntent (s : State) : Intent := if s.intValid then s.intent else .empty

/-- eff, the effective mode (42_record_codec.md R190, R192): the intent's mode when it has one, else MODE. -/
def effectiveMode (s : State) : Option Mode :=
  match (activeIntent s).mode with
  | some m => some m
  | none => s.mode

/-- encode_mode (42_record_codec.md R191): OFF clears the power bit and keeps the mode byte. -/
def encodeMode (c : Config) (p : Record) : Option Mode → Record
  | none => p
  | some m =>
    match modeCode c.modeCode m with
    | none => setBit p c.layout.power false
    | some x => setByte (setBit p c.layout.power true) c.layout.mode x

/-- FAN_REJ (42_record_codec.md R192): AUTO is refused in fan-only mode. -/
def fanRejected (f : Option Fan) (eff : Option Mode) : Bool := decide (f = some .auto ∧ eff = some .fanOnly)

/-- encode_fan (42_record_codec.md R192). -/
def encodeFan (c : Config) (p : Record) (f : Option Fan) (eff : Option Mode) : Record :=
  match f with
  | none => p
  | some x => if fanRejected f eff then p else setByte p c.layout.fan (fanCode c.fanCode x)

/-- encode_swing (42_record_codec.md R193): BOTH clears the individual flags. -/
def encodeSwing (c : Config) (p : Record) : Option Swing → Record
  | none => p
  | some w =>
    setBit (setBit (setBoth p c.layout.swingBoth (decide (w = .both))) c.layout.swingV (decide (w = .vertical)))
      c.layout.swingH (decide (w = .horizontal))

/-- TEMP_MIN ≤ t ≤ TEMP_MAX (42_record_codec.md R194). -/
def tempInRange (c : Config) (t : Byte) : Bool := decide (c.tempMin ≤ t.toNat) && decide (t.toNat ≤ c.tempMax)

/-- TEMP_REJ (42_record_codec.md R194). -/
def tempRejected (c : Config) : Option Byte → Bool
  | none => false
  | some t => !tempInRange c t

/-- encode_temp (42_record_codec.md R194): the set-point byte is (t − BIAS) mod 256. -/
def encodeTemp (c : Config) (p : Record) : Option Byte → Record
  | none => p
  | some t => if tempInRange c t then setByte p c.layout.setpoint (t - BitVec.ofNat 8 c.bias) else p

/-- The display and beeper flags, always from CFG, last (42_record_codec.md R195). -/
def encodeConfig (c : Config) (p : Record) (display beeper : Bool) : Record :=
  setBit (setBit p c.layout.display display) c.layout.beeper beeper

/-- The control record built from the baseline `p` (42_record_codec.md R190 to R195). -/
def controlRecord (p : Record) (s : State) : Record :=
  let i := activeIntent s
  let p := encodeMode s.config p i.mode
  let p := encodeFan s.config p i.fan (effectiveMode s)
  let p := encodeSwing s.config p i.swing
  let p := encodeTemp s.config p i.temp
  encodeConfig s.config p s.displayOn s.beeperSilent

/-- ENCODE with the baseline `p` (42_record_codec.md R190). -/
def encodeRecord (p : Record) (s : State) : State :=
  emit .encoded { s with
    txp := s.txp.writeAll 0 (controlRecord p s).bytes
    txpValid := true
    encFlags := encFlagsOf (tempRejected s.config (activeIntent s).temp)
      (fanRejected (activeIntent s).fan (effectiveMode s)) }

/-- ENCODE (42_record_codec.md R190). -/
def execEncode (s : State) : Host.Outcome State Fault Refusal :=
  if s.baseValid = false then .next (emit .encodeRejected s)
  else
    match s.base.readRecord 0 with
    | some p => .next (encodeRecord p s)
    | none => .fault (.noValue .base)

end Sys2Proof.Machine
end

