-- ==== Sys2Proof/Machine/Validator.lean ====
section
/-! DEFINITION. The checksum and CRC validator (41_checksum_crc.md): two pure functions and the acceptance predicate. -/

namespace Sys2Proof.Machine

/-- `cksum`: the sum of the bytes mod 256 (41_checksum_crc.md R150). -/
def cksum (bytes : List Byte) : Byte := bytes.foldl (fun a b => a + b) 0x00#8

/-- One of the eight shifts of crc16 (41_checksum_crc.md R152). -/
def crcShift (c : BitVec 16) : BitVec 16 := if c.getLsbD 0 then (c >>> 1) ^^^ 0xA001#16 else c >>> 1

/-- `f` applied `n` times. -/
def iter {α : Type} (f : α → α) : Nat → α → α
  | 0, x => x
  | n + 1, x => iter f n (f x)

/-- One byte of crc16 (41_checksum_crc.md R152). -/
def crcByte (c : BitVec 16) (x : Byte) : BitVec 16 := iter crcShift 8 (c ^^^ x.setWidth 16)

/-- `crc16`: CRC-16/ARC, reflected, polynomial constant 0xA001, initial value 0, no final inversion (41_checksum_crc.md R152).
PRESUMED (log 7): all of it but the polynomial is general knowledge that the spec takes as the definition. -/
def crc16 (bytes : List Byte) : BitVec 16 := bytes.foldl crcByte 0x0000#16

/-- CRC[15:8], sent first (20_memory.md R65). -/
def crcHigh (c : BitVec 16) : Byte := c.extractLsb' 8 8

/-- CRC[7:0], sent second (20_memory.md R65). -/
def crcLow (c : BitVec 16) : Byte := c.extractLsb' 0 8

/-- The two CRC bytes in the order they are sent (41_checksum_crc.md R154). -/
def crcBytes (c : BitVec 16) : List Byte := [crcHigh c, crcLow c]

/-- A length byte the reader accepts: LEN_MIN ≤ N ≤ LEN_MAX (40_frame_reader.md R124). -/
def lengthOk (c : Config) (n : Byte) : Bool := decide (lenMin ≤ n.toNat) && decide (n.toNat ≤ c.lenMax)

/-- The frame around a body (frame bytes 0 to N − 1): checksum, and the CRC when `crc` (30_encoding.md R93). -/
def frameOf (crc : Bool) (body : List Byte) : List Byte :=
  body ++ [cksum body] ++ (if crc then crcBytes (crc16 body) else [])

/-- The validator's acceptance condition (41_checksum_crc.md R155) for a whole received frame `f`, whose latched CRC option
is `crc`: (i) the length byte N is in range, (ii) the byte at index N is the checksum of the N bytes before it, (iii) with
the CRC option, indices N + 1 and N + 2 hold the CRC of those N bytes, high byte first. -/
def accepts (c : Config) (crc : Bool) : List Byte → Bool
  | [] => false
  | n :: rest =>
    let f := n :: rest
    let body := f.take n.toNat
    lengthOk c n && decide (f.length = n.toNat + 1 + (if crc then 2 else 0))
      && f[n.toNat]? == some (cksum body)
      && (!crc || (f[n.toNat + 1]? == some (crcHigh (crc16 body)) && f[n.toNat + 2]? == some (crcLow (crc16 body))))

end Sys2Proof.Machine
end

