-- ==== Sys2Proof/Machine/Framer.lean ====
section
/-! DEFINITION. The framer and the control commands: BUILD, SETCFG, RESET, NOP and the reserved opcodes
(43_framer_control.md). -/

namespace Sys2Proof.Machine

/-! ## BUILD -/

/-- N of a built frame: 10 without payload, 34 with it (43_framer_control.md R210, R211). -/
def builtLen (pl : Bool) : Nat := hdrSize + (if pl then recSize else 0)

/-- The frame bytes before the checksum: length, PREFIX, type, arguments, payload (43_framer_control.md R210). -/
def buildBody (pl : Bool) (ty a0 a1 : Byte) (payload : List Byte) : List Byte :=
  [BitVec.ofNat 8 (builtLen pl)] ++ prefixBytes ++ [ty, a0, a1] ++ payload

/-- The outbound frame, markers included (43_framer_control.md R210). -/
def buildFrame (crc pl : Bool) (ty a0 a1 : Byte) (payload : List Byte) : List Byte :=
  [marker, marker] ++ frameOf crc (buildBody pl ty a0 a1 payload)

/-- TX, TXLEN and TX_VALID after a BUILD of the frame `t` (43_framer_control.md R210). -/
def putTx (t : List Byte) (s : State) : State :=
  emit .built { s with tx := s.tx.writeAll 0 t, txlen := t.length, txValid := true }

/-- BUILD once its payload is at hand: the size check, then the frame (43_framer_control.md R210). -/
def buildWith (pl : Bool) (ty a0 a1 : Byte) (payload : List Byte) (s : State) : Host.Outcome State Fault Refusal :=
  .next (if s.config.maxFrameSize < builtLen pl + 3 then emit .tooLong s
    else putTx (buildFrame s.crcEn pl ty a0 a1 payload) s)

/-- BUILD (43_framer_control.md R210). -/
def execBuild (pl : Bool) (ty a0 a1 : Byte) (s : State) : Host.Outcome State Fault Refusal :=
  if pl then
    if s.txpValid = false then .next (emit .noPayload s)
    else
      match s.txp.readRecord 0 with
      | some p => buildWith true ty a0 a1 p.bytes s
      | none => .fault (.noValue .txp)
  else buildWith false ty a0 a1 [] s

/-! ## SETCFG, RESET, NOP -/

/-- SETCFG (43_framer_control.md R212). -/
def execSetcfg (bs don ce : Bool) (s : State) : Host.Outcome State Fault Refusal :=
  .next (emit .cfgSet { s with cfg := cfgByte bs don ce })

/-- RESET (43_framer_control.md R214): every piece of state takes its reset value. The parameters of this FSC and the
commands the host has still pending are no state of FSC and stay (log 3). -/
def execReset (s : State) : Host.Outcome State Fault Refusal :=
  .next (emit .resetDone { State.resetWith s.config with port := s.port })

/-- NOP (43_framer_control.md R216). -/
def execNop (s : State) : Host.Outcome State Fault Refusal := .next (emit .none s)

/-! ## The reserved opcodes (43_framer_control.md R218) -/

/-- OP 0xB is ILLEGAL, whatever bits 27:0 hold. -/
def execReservedB (s : State) : Host.Outcome State Fault Refusal := illegal s

/-- OP 0xC is ILLEGAL, whatever bits 27:0 hold. -/
def execReservedC (s : State) : Host.Outcome State Fault Refusal := illegal s

/-- OP 0xD is ILLEGAL, whatever bits 27:0 hold. -/
def execReservedD (s : State) : Host.Outcome State Fault Refusal := illegal s

/-- OP 0xE is ILLEGAL, whatever bits 27:0 hold. -/
def execReservedE (s : State) : Host.Outcome State Fault Refusal := illegal s

/-- OP 0xF is ILLEGAL, whatever bits 27:0 hold. -/
def execReservedF (s : State) : Host.Outcome State Fault Refusal := illegal s

end Sys2Proof.Machine
end

