-- ==== Sys2Proof/Machine/Reader.lean ====
section
/-! DEFINITION. The frame reader: FEED, TICK and HUNT (40_frame_reader.md). -/

namespace Sys2Proof.Machine

/-- The marker count saturates at 2 (40_frame_reader.md R122). -/
def nextMark (m : Fin 3) : Fin 3 := if m.val = 0 then 1 else 2

/-- FEED of a marker in HUNT(m) (40_frame_reader.md R122). -/
def feedMarker (m : Fin 3) (s : State) : State := emit .incomplete { s with rstate := .hunt (nextMark m) }

/-- FEED of a non-marker byte in HUNT(0) or HUNT(1) (40_frame_reader.md R123). -/
def feedGarbage (s : State) : State := emit .incomplete { s with rstate := .hunt 0 }

/-- FEED of a non-marker byte in HUNT(2): it is the length byte (40_frame_reader.md R124). -/
def feedLength (b : Byte) (s : State) : Host.Outcome State Fault Refusal :=
  if lengthOk s.config b then
    storeRx 0 b s fun s => .next (emit .incomplete
      { s with rxn := b, sum := b, crcL := s.crcEn, rxValid := false, rxCrc := false, rstate := .body 1 })
  else .next (emit .resyncBadLength { s with rstate := .hunt 0 })

/-- FEED in BODY(i) with i < RXN: a frame byte, added to the checksum (40_frame_reader.md R125). -/
def feedBody (i : Nat) (b : Byte) (s : State) : Host.Outcome State Fault Refusal :=
  storeRx i b s fun s => .next (emit .incomplete { s with sum := s.sum + b, rstate := .body (i + 1) })

/-- FEED in BODY(RXN): the checksum byte (40_frame_reader.md R126). -/
def feedChecksum (b : Byte) (s : State) : Host.Outcome State Fault Refusal :=
  storeRx s.rxn.toNat b s fun s => .next (
    if b ≠ s.sum then emit .resyncChecksum { s with rstate := .hunt 0 }
    else if s.crcL then emit .incomplete { s with rstate := .crcb 0 }
    else emit .frameReady { s with rxValid := true, rxCrc := false, rstate := .hunt 0 })

/-- FEED in CRCB(0): the high CRC byte (40_frame_reader.md R127). -/
def feedCrcHigh (b : Byte) (s : State) : Host.Outcome State Fault Refusal :=
  storeRx (s.rxn.toNat + 1) b s fun s => .next (emit .incomplete { s with rstate := .crcb 1 })

/-- FEED in CRCB(1): the low CRC byte, and the comparison of the CRC (40_frame_reader.md R128). -/
def feedCrcLow (b : Byte) (s : State) : Host.Outcome State Fault Refusal :=
  storeRx (s.rxn.toNat + 2) b s fun s =>
    match s.rx.read (s.rxn.toNat + 1), s.rx.readAll 0 s.rxn.toNat with
    | some hi, some body => .next (
        if hi ++ b = crc16 body then emit .frameReady { s with rxValid := true, rxCrc := true, rstate := .hunt 0 }
        else emit .resyncCrc { s with rstate := .hunt 0 })
    | _, _ => .fault (.noValue .rx)

/-- The cases of FEED, chosen by RSTATE, after IDLE is cleared (40_frame_reader.md R121). -/
def feedCase (b : Byte) (s : State) : Host.Outcome State Fault Refusal :=
  match s.rstate with
  | .hunt m =>
    if b = marker then .next (feedMarker m s)
    else if m.val < 2 then .next (feedGarbage s)
    else feedLength b s
  | .body i =>
    if i < s.rxn.toNat then feedBody i b s
    else if i = s.rxn.toNat then feedChecksum b s
    else .fault .readerOutsideRules
  | .crcb k => if k.val = 0 then feedCrcHigh b s else feedCrcLow b s

/-- FEED b (40_frame_reader.md R121). -/
def execFeed (b : Byte) (s : State) : Host.Outcome State Fault Refusal := feedCase b { s with idle := 0 }

/-- TICK while a frame or a marker run is partial (40_frame_reader.md R131). -/
def tickPartial (s : State) : State :=
  if s.config.intraTimeout ≤ s.idle + 1 then emit .resyncTimeout { s with rstate := .hunt 0, idle := 0 }
  else emit .none { s with idle := s.idle + 1 }

/-- TICK (40_frame_reader.md R131): in HUNT(0) there is nothing partial to time out. -/
def execTick (s : State) : Host.Outcome State Fault Refusal :=
  .next (if s.rstate = .hunt 0 then emit .none s else tickPartial s)

/-- HUNT (40_frame_reader.md R133): back to header search at once. -/
def execHunt (s : State) : Host.Outcome State Fault Refusal :=
  .next (emit .none { s with rstate := .hunt 0, idle := 0 })

end Sys2Proof.Machine
end

