-- ==== Sys2Proof/Machine/Dispatch.lean ====
section
/-! DEFINITION. What each command does: one arm for each constructor of Instr (30_encoding.md R82). -/

namespace Sys2Proof.Machine

-- The effect of one command on the state (00_scope.md R15).
def exec (i : Instr) (s : State) : Host.Outcome State Fault Refusal :=
  match i with
  | .nop => Sys2Proof.Machine.execNop s
  | .feed b => Sys2Proof.Machine.execFeed b s
  | .tick => Sys2Proof.Machine.execTick s
  | .hunt => Sys2Proof.Machine.execHunt s
  | .setcfg bs don ce => Sys2Proof.Machine.execSetcfg bs don ce s
  | .setint w => Sys2Proof.Machine.execSetint w s
  | .clrint => Sys2Proof.Machine.execClrint s
  | .decode => Sys2Proof.Machine.execDecode s
  | .encode => Sys2Proof.Machine.execEncode s
  | .build pl ty a0 a1 => Sys2Proof.Machine.execBuild pl ty a0 a1 s
  | .reset => Sys2Proof.Machine.execReset s
  | .reservedB _ => Sys2Proof.Machine.execReservedB s
  | .reservedC _ => Sys2Proof.Machine.execReservedC s
  | .reservedD _ => Sys2Proof.Machine.execReservedD s
  | .reservedE _ => Sys2Proof.Machine.execReservedE s
  | .reservedF _ => Sys2Proof.Machine.execReservedF s

end Sys2Proof.Machine
end

