-- ==== Sys2Proof/Machine/Port.lean ====
section
/-! DEFINITION. The command port (30_encoding.md R80): what a command word does, and how the host issues words; the
pseudo-instructions of 30_encoding.md R92. -/

namespace Sys2Proof.Machine

/-- What one command word does: an ILLEGAL word changes EVT only (30_encoding.md R89), any other is its command. -/
def stepWord (w : Word) (s : State) : Host.Outcome State Fault Refusal :=
  match decode w with
  | .ok i => exec i s
  | .error _ => illegal s

/-- The host issues command words: they arrive after those it issued before (20_memory.md R71). -/
def issue (ws : List Word) (s : State) : State := { s with port := s.port ++ ws }

/-- The word that the next step takes is `w`, ahead of every word still pending. -/
def nextWord (w : Word) (s : State) : State := { s with port := w :: s.port }

/-- FEEDS b0, b1, …, bk (30_encoding.md R92). -/
def feeds (bytes : List Byte) : List Instr := bytes.map .feed

/-- TICKS n (30_encoding.md R92). -/
def ticks (n : Nat) : List Instr := List.replicate n .tick

/-- SENDCTL type, a0, a1 (30_encoding.md R92). -/
def sendctl (ty a0 a1 : Byte) : List Instr := [.encode, .build true ty a0 a1]

end Sys2Proof.Machine
end

