-- ==== Sys2Proof/Machine/View.lean ====
section
/-! DEFINITION. What the host can observe (10_state.md R43). A read has no effect and is no step (20_memory.md R64), so the
view is a function of the state. -/

namespace Sys2Proof.Machine

/-- The state the host can read (10_state.md R43). RSTATE is seen only through STAT.IN_FRAME; IDLE, SUM and CRC_L are hidden
(R45). A buffer is seen only as far as its valid flag and its length say that it holds content (20_memory.md R61, R63);
log 8. -/
structure HostView where
  evt      : Byte
  stat     : Byte
  cfg      : Byte
  encFlags : BitVec 2
  rxn      : Byte
  rx       : Option (List Byte)
  status   : Option StatusRecord
  mode     : Option Mode
  fan      : Option Fan
  fanFo    : Option Fan
  fanOther : Option Fan
  intent   : Intent
  base     : Option (List Byte)
  txp      : Option (List Byte)
  txlen    : Nat
  tx       : Option (List Byte)
  deriving DecidableEq, Repr

/-- How many bytes the delivered frame has: RX[0 .. RXN], and two more with a CRC (10_state.md R29). -/
def State.rxLen (s : State) : Nat := s.rxn.toNat + 1 + (if s.rxCrc then 2 else 0)

/-- The delivered frame, while RX_VALID = 1 (10_state.md R29). -/
def State.rxFrame (s : State) : Option (List Byte) := if s.rxValid then s.rx.readAll 0 s.rxLen else none

/-- The outbound frame TX[0 .. TXLEN − 1], while TX_VALID = 1 (10_state.md R40). -/
def State.txFrame (s : State) : Option (List Byte) := if s.txValid then s.tx.readAll 0 s.txlen else none

/-- What the host reads (10_state.md R43). -/
def hostView (s : State) : HostView where
  evt := s.evt
  stat := s.stat
  cfg := s.cfg
  encFlags := s.encFlags
  rxn := s.rxn
  rx := s.rxFrame
  status := s.status
  mode := s.mode
  fan := s.fan
  fanFo := s.fanFo
  fanOther := s.fanOther
  intent := s.intent
  base := if s.baseValid then s.base.readAll 0 24 else none
  txp := if s.txpValid then s.txp.readAll 0 24 else none
  txlen := s.txlen
  tx := s.txFrame

/-! ## The header fields of the delivered frame (30_encoding.md R95) -/

/-- TYPE = RX[7]. -/
def State.frameType (s : State) : Option Byte := if s.rxValid then s.rx.read 7 else none

/-- ARG0 = RX[8], present only when RXN ≥ 9. -/
def State.frameArg0 (s : State) : Option Byte := if s.rxValid ∧ 9 ≤ s.rxn.toNat then s.rx.read 8 else none

/-- ARG1 = RX[9], present only when RXN ≥ 10. -/
def State.frameArg1 (s : State) : Option Byte := if s.rxValid ∧ 10 ≤ s.rxn.toNat then s.rx.read 9 else none

/-- The payload RX[10 .. RXN − 1], empty when RXN < 10. -/
def State.framePayload (s : State) : Option (List Byte) :=
  if s.rxValid then s.rx.readAll 10 (s.rxn.toNat - 10) else none

end Sys2Proof.Machine
end

