-- ==== Sys2Proof/Machine/Step.lean ====
section
/-! DEFINITION. One step of FSC: it takes one command word from the command port and does the whole of that command
(00_scope.md R15, 30_encoding.md R80). FSC has no program counter and fetches nothing (10_state.md R21). -/

namespace Sys2Proof.Machine

/-- One step. With no command at the port FSC holds its state (60_exceptions.md R255). -/
def step (s : State) : Host.Outcome State Fault Refusal :=
  match s.port with
  | [] => .next s
  | w :: rest => stepWord w { s with port := rest }

/-- The host has issued the word whose bits are `w` (numbered as in spec/opcode_table.json), and the next step takes it. -/
def State.withFetchWord (s : State) (nbits w : Nat) : State := nextWord (tableWord nbits w) s

end Sys2Proof.Machine
end

