-- ==== Sys2Proof/Safety.lean ====
section
/-! DEFINITION. What counts as a safe run of FSC: the invariant of its states (10_state.md R47 and what the rules need beyond
it), the states its commands can reach, and runs of several commands. -/

namespace Sys2Proof.Machine

/-- The buffer holds the record `p` in cells `at0 .. at0 + 23`. -/
def HoldsRecord (m : Memory) (at0 : Nat) (p : Record) : Prop := ∀ j : Fin 24, m.read (at0 + j.val) = some (p j)

/-- The buffer holds some record in cells `at0 .. at0 + 23`: none of them is ⊥. -/
def HasRecord (m : Memory) (at0 : Nat) : Prop := ∃ p, HoldsRecord m at0 p

/-- The buffer is in canonical form and has no cell beyond its size (20_memory.md R60). -/
def BufferOk (size : Nat) (m : Memory) : Prop := m.wf = true ∧ m.within size = true

/-- All four buffers are (20_memory.md R60). -/
structure BuffersOk (s : State) : Prop where
  rx   : BufferOk s.config.bufSize s.rx
  base : BufferOk 24 s.base
  txp  : BufferOk 24 s.txp
  tx   : BufferOk s.config.bufSize s.tx

/-- The invariants (a) to (g) of 10_state.md R47, word for word. -/
structure R47 (s : State) : Prop where
  a : ∀ i, s.rstate = .body i →
        1 ≤ i ∧ i ≤ s.rxn.toNat ∧ lenMin ≤ s.rxn.toNat ∧ s.rxn.toNat ≤ s.config.lenMax
  b : ∀ k, s.rstate = .crcb k → s.crcL = true
  c : s.rxValid = true → (∃ m, s.rstate = .hunt m) ∧ s.rx.read 0 = some s.rxn
  d : s.rxCrc = true → s.rxValid = true
  e : s.intValid = true ∨ s.txpValid = true → s.baseValid = true
  f : s.status ≠ none ↔ s.baseValid = true
  g : s.rstate = .hunt 0 → s.idle = 0

/-- While a frame is accumulated: RX[0 .. i − 1] hold the frame so far, its length byte first, and SUM is its checksum
(40_frame_reader.md R124, R125, 41_checksum_crc.md R151). -/
def BodyOk (i : Nat) (s : State) : Prop :=
  ∃ bs, s.rx.readAll 0 i = some bs ∧ bs.head? = some s.rxn ∧ s.sum = cksum bs

/-- While the CRC is awaited: RX[0 .. RXN] hold a frame whose checksum matched, and RX[RXN + 1] the high CRC byte once it
came (40_frame_reader.md R126, R127). -/
def CrcbOk (k : Fin 2) (s : State) : Prop :=
  ∃ bs, s.rx.readAll 0 (s.rxn.toNat + 1 + k.val) = some bs ∧ bs.head? = some s.rxn
    ∧ bs[s.rxn.toNat]? = some (cksum (bs.take s.rxn.toNat))

/-- What every state that a parameter choice within 00_scope.md R7 can reach satisfies: R47, the canonical buffers, the bytes
the valid flags promise, and the ranges of the registers. -/
structure FscInv (s : State) : Prop where
  config  : s.config.Wf
  buffers : BuffersOk s
  r47     : R47 s
  /-- RXN is an accepted length also while the CRC is awaited (40_frame_reader.md R124). -/
  crcbLen : ∀ k, s.rstate = .crcb k → lengthOk s.config s.rxn = true
  body    : ∀ i, s.rstate = .body i → BodyOk i s
  crcb    : ∀ k, s.rstate = .crcb k → CrcbOk k s
  /-- A delivered frame is an accepted frame (10_state.md R29, 41_checksum_crc.md R155). -/
  frame   : s.rxValid = true → ∃ f, s.rxFrame = some f ∧ accepts s.config s.rxCrc f = true
  /-- BASE holds a record (10_state.md R31). -/
  base    : s.baseValid = true → HasRecord s.base 0
  /-- TXP holds a record (10_state.md R38). -/
  txp     : s.txpValid = true → HasRecord s.txp 0
  /-- TX holds TXLEN bytes (10_state.md R40). -/
  tx      : s.txValid = true → ∃ f, s.txFrame = some f
  txlen   : s.txlen ≤ s.config.bufSize
  /-- STATUS copies MODE and FAN, and its target lies in BIAS .. 255 + BIAS (10_state.md R37). -/
  status  : ∀ r, s.status = some r →
              r.mode = s.mode ∧ r.fan = s.fan ∧ s.config.bias ≤ r.target ∧ r.target ≤ 255 + s.config.bias
  /-- IDLE stays below INTRA_TIMEOUT (10_state.md R24). -/
  idle    : s.idle < s.config.intraTimeout
  /-- CFG bits 7:3 read as 0 (10_state.md R27). -/
  cfg     : s.cfg.toNat < 8
  /-- EVT holds no reserved code (60_exceptions.md R241). -/
  evt     : s.evt.toNat ≤ 0x14

/-- The states an FSC with parameters `c` can reach from reset, whatever commands the host issues. -/
inductive Reachable (c : Config) : State → Prop where
  | reset : Reachable c (State.resetWith c)
  | issue (ws : List Word) {s : State} : Reachable c s → Reachable c (issue ws s)
  | step {s t : State} : Reachable c s → step s = .next t → Reachable c t

/-- Several commands one after another: the event each ended with, in order, and the state after the last; nothing when one
of them stops the model. -/
def runs : List Instr → State → Option (List Byte × State)
  | [], s => some ([], s)
  | i :: is, s =>
    match exec i s with
    | .next t =>
      match runs is t with
      | some (es, u) => some (t.evt :: es, u)
      | none => none
    | .fault _ => none
    | .refused _ => none

/-- The intent that ENCODE would apply has no field with a wire effect: INT_VALID = 0, or every field but the preset none
(42_record_codec.md R197, R199). -/
def NoIntent (s : State) : Prop :=
  s.intValid = false
    ∨ (s.intent.mode = none ∧ s.intent.fan = none ∧ s.intent.swing = none ∧ s.intent.temp = none)

/-- The record bit `(o, b)` is reserved: no field of the layout covers it (30_encoding.md R96). -/
def Reserved (l : Layout) (f : BitPos) : Prop := f ∉ l.bits

end Sys2Proof.Machine
end

