-- ==== Sys2Proof/Certificates/Slice0/Obligations.lean ====
section
/-! DEFINITION. The statements about this model of FSC, for the provers. Each docstring names the rule it formalises; event
codes are written as 60_exceptions.md R241 lists them. -/

open Sys2Proof Sys2Proof.Machine

/-! ## Reset and the control commands -/

/-- 10_state.md R46: the value of every piece of state after a reset, by power-on or by RESET, whatever the parameters are;
`State.reset` is such a state. -/
def Obligations.ResetLeavesTheStatedValues : Prop :=
  (∀ s, ((∃ c : Config, s = State.resetWith c) ∨ ∃ u, exec .reset u = .next s) →
    s.rstate = .hunt 0 ∧ s.idle = 0 ∧ s.rxn = 0#8 ∧ s.sum = 0#8 ∧ s.crcL = false ∧ s.rxValid = false ∧ s.rxCrc = false
    ∧ (∀ j, s.rx.read j = none) ∧ s.cfg = 0x00#8 ∧ s.baseValid = false ∧ (∀ j, s.base.read j = none)
    ∧ s.mode = none ∧ s.fan = none ∧ s.fanFo = none ∧ s.fanOther = none ∧ s.status = none
    ∧ s.intent = ⟨none, none, none, none, none⟩ ∧ s.intValid = false ∧ s.txpValid = false
    ∧ (∀ j, s.txp.read j = none) ∧ s.encFlags = 0b00#2 ∧ s.txValid = false ∧ s.txlen = 0
    ∧ (∀ j, s.tx.read j = none) ∧ s.evt = 0x13#8)
  ∧ ∃ c, State.reset = State.resetWith c

/-- 43_framer_control.md R214: RESET completes in every state and leaves the state of 10_state.md R46, with EVT = RESET_DONE
(0x13). That the parameters and the queue of the host's pending commands stay is the model's inference (log 3). -/
def Obligations.ResetCommandGivesTheResetState : Prop :=
  ∀ s, ∃ t, exec .reset s = .next t ∧ { t with port := [] } = State.resetWith s.config ∧ t.port = s.port
    ∧ t.evt = 0x13#8

/-- 43_framer_control.md R216: NOP writes EVT <- NONE and nothing else. -/
def Obligations.NopWritesOnlyEvt : Prop :=
  ∀ s, exec .nop s = .next { s with evt := 0x00#8 }

/-- 43_framer_control.md R212: SETCFG writes CFG (bit 2 BS, bit 1 DO, bit 0 CE, the others 0) and EVT <- CFG_SET (0x12), and
nothing else; it completes in every state. -/
def Obligations.SetcfgWritesTheConfiguration : Prop :=
  ∀ s bs don ce, ∃ v : Byte, exec (.setcfg bs don ce) s = .next { s with cfg := v, evt := 0x12#8 }
    ∧ v.getLsbD 0 = ce ∧ v.getLsbD 1 = don ∧ v.getLsbD 2 = bs ∧ ∀ k, 3 ≤ k → v.getLsbD k = false

/-- 43_framer_control.md R218: a command with a reserved opcode writes EVT <- ILLEGAL (0x14) and nothing else, whatever bits
27:0 hold; every word with such an opcode does. -/
def Obligations.ReservedOpcodesWriteOnlyEvt : Prop :=
  ∀ s,
    (∀ (x : BitVec 28) (i : Instr), i ∈ [Instr.reservedB x, .reservedC x, .reservedD x, .reservedE x, .reservedF x] →
      exec i s = .next { s with evt := 0x14#8 })
    ∧ ∀ w : Word, 0xB ≤ w.toNat / 2 ^ 28 → stepWord w s = .next { s with evt := 0x14#8 }

/-! ## The frame reader -/

/-- 40_frame_reader.md R122: a marker is counted, saturating at 2. -/
def Obligations.FeedOfAMarkerIsCounted : Prop :=
  ∀ s (m : Fin 3), s.rstate = .hunt m → ∃ k : Fin 3, k.val = min (m.val + 1) 2
    ∧ exec (.feed 0xFF#8) s = .next { s with rstate := .hunt k, idle := 0, evt := 0x01#8 }

/-- 40_frame_reader.md R123: a non-marker byte after fewer than two markers restarts the count. -/
def Obligations.FeedOfGarbageRestartsTheCount : Prop :=
  ∀ s (m : Fin 3) (b : Byte), s.rstate = .hunt m → m.val < 2 → b ≠ 0xFF#8 →
    exec (.feed b) s = .next { s with rstate := .hunt 0, idle := 0, evt := 0x01#8 }

/-- 40_frame_reader.md R124: after two markers a non-marker byte is the length byte, accepted or rejected. -/
def Obligations.FeedTakesTheLengthByte : Prop :=
  ∀ s (b : Byte), s.rstate = .hunt 2 → b ≠ 0xFF#8 →
    ((8 ≤ b.toNat ∧ b.toNat ≤ min (s.config.maxFrameSize - 3) 255 →
      exec (.feed b) s = .next { s with
        rxn := b, rx := s.rx.write 0 b, sum := b, crcL := s.cfg.getLsbD 0, rxValid := false, rxCrc := false,
        rstate := .body 1, idle := 0, evt := 0x01#8 })
    ∧ (¬ (8 ≤ b.toNat ∧ b.toNat ≤ min (s.config.maxFrameSize - 3) 255) →
      exec (.feed b) s = .next { s with rstate := .hunt 0, idle := 0, evt := 0x03#8 }))

/-- 40_frame_reader.md R125: a byte before the checksum is stored and added to SUM, also when it is 0xFF. -/
def Obligations.FeedStoresAFrameByte : Prop :=
  ∀ s i (b : Byte), FscInv s → s.rstate = .body i → i < s.rxn.toNat →
    exec (.feed b) s = .next { s with
      rx := s.rx.write i b, sum := s.sum + b, rstate := .body (i + 1), idle := 0, evt := 0x01#8 }

/-- 40_frame_reader.md R126: the checksum byte is stored and compared with SUM, which is the checksum of RX[0 .. RXN − 1]; it
ends the frame unless a CRC was latched. On a mismatch RX_VALID stays 0. -/
def Obligations.FeedComparesTheChecksum : Prop :=
  ∀ s (b : Byte), FscInv s → s.rstate = .body s.rxn.toNat →
    (∃ body, s.rx.readAll 0 s.rxn.toNat = some body ∧ s.sum = cksum body) ∧ s.rxValid = false
    ∧ (b ≠ s.sum → exec (.feed b) s = .next { s with
      rx := s.rx.write s.rxn.toNat b, rstate := .hunt 0, idle := 0, evt := 0x04#8 })
    ∧ (b = s.sum → s.crcL = true → exec (.feed b) s = .next { s with
      rx := s.rx.write s.rxn.toNat b, rstate := .crcb 0, idle := 0, evt := 0x01#8 })
    ∧ (b = s.sum → s.crcL = false → exec (.feed b) s = .next { s with
      rx := s.rx.write s.rxn.toNat b, rxValid := true, rxCrc := false, rstate := .hunt 0, idle := 0, evt := 0x02#8 })

/-- 40_frame_reader.md R127: the high CRC byte is stored. -/
def Obligations.FeedStoresTheHighCrcByte : Prop :=
  ∀ s (b : Byte), FscInv s → s.rstate = .crcb 0 →
    exec (.feed b) s = .next { s with
      rx := s.rx.write (s.rxn.toNat + 1) b, rstate := .crcb 1, idle := 0, evt := 0x01#8 }

/-- 40_frame_reader.md R128, with crc16 as 41_checksum_crc.md R152 defines it (log 7): the low CRC byte is stored, and the two
bytes are compared with the CRC of frame bytes 0 .. RXN − 1. -/
def Obligations.FeedComparesTheCrc : Prop :=
  ∀ s (b : Byte), FscInv s → s.rstate = .crcb 1 →
    ∃ (hi : Byte) (body : List Byte), s.rx.read (s.rxn.toNat + 1) = some hi
    ∧ s.rx.readAll 0 s.rxn.toNat = some body
    ∧ (hi ++ b = crc16 body → exec (.feed b) s = .next { s with
        rx := s.rx.write (s.rxn.toNat + 2) b, rxValid := true, rxCrc := true, rstate := .hunt 0, idle := 0,
        evt := 0x02#8 })
    ∧ (hi ++ b ≠ crc16 body → exec (.feed b) s = .next { s with
        rx := s.rx.write (s.rxn.toNat + 2) b, rstate := .hunt 0, idle := 0, evt := 0x05#8 })

/-- 40_frame_reader.md R121: FEED writes only the reader's state and EVT, never CFG, the codec state or the transmit state;
20_memory.md R61: of RX it writes one cell, at the index RSTATE names, and none in header search unless it accepts a length.
-/
def Obligations.FeedWritesOnlyTheReader : Prop :=
  ∀ s t (b : Byte), exec (.feed b) s = .next t →
    t = { s with
      rstate := t.rstate, idle := 0, rxn := t.rxn, sum := t.sum, crcL := t.crcL, rxValid := t.rxValid,
      rxCrc := t.rxCrc, rx := t.rx, evt := t.evt }
    ∧ (∀ m, s.rstate = .hunt m → m.val = 2 → b ≠ 0xFF#8 → lengthOk s.config b = true →
        ∀ j, j ≠ 0 → t.rx.read j = s.rx.read j)
    ∧ (∀ m, s.rstate = .hunt m → ¬ (m.val = 2 ∧ b ≠ 0xFF#8 ∧ lengthOk s.config b = true) →
        ∀ j, t.rx.read j = s.rx.read j)
    ∧ (∀ i, s.rstate = .body i → ∀ j, j ≠ i → t.rx.read j = s.rx.read j)
    ∧ (∀ k, s.rstate = .crcb k → ∀ j, j ≠ s.rxn.toNat + 1 + k.val → t.rx.read j = s.rx.read j)

/-- 40_frame_reader.md R131: TICK does nothing in HUNT(0), else it counts, and times out when the count reaches INTRA_TIMEOUT.
-/
def Obligations.TickCountsOrTimesOut : Prop :=
  ∀ s,
    (s.rstate = .hunt 0 → exec .tick s = .next { s with evt := 0x00#8 })
    ∧ (s.rstate ≠ .hunt 0 → s.config.intraTimeout ≤ s.idle + 1 →
        exec .tick s = .next { s with rstate := .hunt 0, idle := 0, evt := 0x06#8 })
    ∧ (s.rstate ≠ .hunt 0 → s.idle + 1 < s.config.intraTimeout →
        exec .tick s = .next { s with idle := s.idle + 1, evt := 0x00#8 })

/-- 40_frame_reader.md R131, 60_exceptions.md R251: from a partial frame or marker run whose last byte has just come,
INTRA_TIMEOUT TICKs give NONE until the last, which gives RESYNC_TIMEOUT; nothing changes but RSTATE and EVT. -/
def Obligations.SilenceOfIntraTimeoutTicksTimesOut : Prop :=
  ∀ s, 1 ≤ s.config.intraTimeout → s.rstate ≠ .hunt 0 → s.idle = 0 →
    runs (ticks s.config.intraTimeout) s =
      some (List.replicate (s.config.intraTimeout - 1) 0x00#8 ++ [0x06#8],
        { s with rstate := .hunt 0, idle := 0, evt := 0x06#8 })

/-- 40_frame_reader.md R133: HUNT restarts header search at once and leaves a delivered frame readable. -/
def Obligations.HuntRestartsHeaderSearch : Prop :=
  ∀ s, exec .hunt s = .next { s with rstate := .hunt 0, idle := 0, evt := 0x00#8 }

/-- 40_frame_reader.md R134, which the spec derives from its other rules: nothing but FEED, TICK, HUNT and RESET changes the
reader's state. -/
def Obligations.OnlyReaderCommandsMoveTheReader : Prop :=
  ∀ i s t, (∀ b, i ≠ .feed b) → i ≠ .tick → i ≠ .hunt → i ≠ .reset → exec i s = .next t →
    t.rstate = s.rstate ∧ t.idle = s.idle ∧ t.rxn = s.rxn ∧ t.sum = s.sum ∧ t.crcL = s.crcL ∧ t.rx = s.rx
    ∧ t.rxValid = s.rxValid ∧ t.rxCrc = s.rxCrc

/-- 70_reset_and_hazards.md R275, which the spec derives from 40_frame_reader.md R124, and 10_state.md R28: a frame whose
length byte was accepted is judged without regard to the CFG of the moment, so a SETCFG in between cannot change what FEED
does to it. -/
def Obligations.FrameInProgressIgnoresTheConfiguration : Prop :=
  ∀ s t (b v : Byte), (∀ m, s.rstate ≠ .hunt m) → exec (.feed b) s = .next t →
    exec (.feed b) { s with cfg := v } = .next { t with cfg := v }

/-- 41_checksum_crc.md R155, which the spec derives from 40_frame_reader.md R124, R126 and R128: from HUNT(2), a whole
candidate frame (a length byte that is in range and no marker, N further bytes, and two more when CFG.CRC_EN is set) ends in
FRAME_READY with the frame in RX when the validator accepts it, each earlier byte giving INCOMPLETE; when the validator does
not accept it, no byte gives FRAME_READY. -/
def Obligations.ReaderDeliversExactlyTheAcceptedFrames : Prop :=
  ∀ s (n : Byte) (rest : List Byte), FscInv s → s.rstate = .hunt 2 → lengthOk s.config n = true → n ≠ 0xFF#8 →
    rest.length = n.toNat + (if s.crcEn then 2 else 0) →
    ∃ es t, runs (feeds (n :: rest)) s = some (es, t)
    ∧ (accepts s.config s.crcEn (n :: rest) = true →
        es = List.replicate rest.length 0x01#8 ++ [0x02#8] ∧ t.rxFrame = some (n :: rest) ∧ t.rxCrc = s.crcEn
        ∧ t.rstate = .hunt 0)
    ∧ (accepts s.config s.crcEn (n :: rest) = false → 0x02#8 ∉ es ∧ t.rxValid = false)

/-- 40_frame_reader.md R129 (a), which the spec derives from R122 to R128: two accepted frames back to back give exactly two
FRAME_READY events, and the second frame is the one in RX. -/
def Obligations.BackToBackFramesAreBothDelivered : Prop :=
  ∀ s (f g : List Byte), FscInv s → s.rstate = .hunt 0 → f.head? ≠ some 0xFF#8 → g.head? ≠ some 0xFF#8 →
    accepts s.config s.crcEn f = true → accepts s.config s.crcEn g = true →
    ∃ es t, runs (feeds ([0xFF#8, 0xFF#8] ++ f ++ [0xFF#8, 0xFF#8] ++ g)) s = some (es, t)
      ∧ es.count 0x02#8 = 2 ∧ t.rxFrame = some g

/-- 40_frame_reader.md R129 (b), which the spec derives from R122 to R128: two or more markers and an out-of-range length give
RESYNC_BAD_LENGTH and no FRAME_READY, and the reader is in HUNT(0); a frame delivered before stays as it was. -/
def Obligations.MarkersAndABadLengthResynchronize : Prop :=
  ∀ s k (b : Byte), (∃ m, s.rstate = .hunt m) → b ≠ 0xFF#8 → lengthOk s.config b = false →
    runs (feeds (List.replicate (k + 2) 0xFF#8 ++ [b])) s =
      some (List.replicate (k + 2) 0x01#8 ++ [0x03#8], { s with rstate := .hunt 0, idle := 0, evt := 0x03#8 })

/-- 40_frame_reader.md R129 (c), 41_checksum_crc.md R157 (a), which the spec derives from R122 to R128 and R150: one bit
changed in any byte after the length byte of an accepted frame, the checksum byte included, gives RESYNC_CHECKSUM at the
checksum byte, and no frame is delivered. -/
def Obligations.SingleBitChangeIsDropped : Prop :=
  ∀ s (n : Byte) (rest : List Byte) p (k : Fin 8), FscInv s → s.rstate = .hunt 2 → n ≠ 0xFF#8 →
    accepts s.config s.crcEn (n :: rest) = true → p < n.toNat →
    ∃ x t, rest[p]? = some x
    ∧ runs (feeds (n :: (rest.set p (x ^^^ bitMask k)).take n.toNat)) s =
        some (List.replicate n.toNat 0x01#8 ++ [0x04#8], t)
    ∧ t.rstate = .hunt 0 ∧ t.rxValid = false

/-- 40_frame_reader.md R129 (f), which the spec derives from R122 to R128: a FRAME_READY from HUNT(0) needs the two markers
and RXN + 1 bytes. -/
def Obligations.FrameNeedsAllItsBytes : Prop :=
  ∀ s t bs es, FscInv s → s.rstate = .hunt 0 → runs (feeds bs) s = some (es ++ [0x02#8], t) →
    2 + t.rxn.toNat + 1 ≤ bs.length

/-! ## The validator -/

/-- 41_checksum_crc.md R150: the checksum is the sum of the bytes mod 256. -/
def Obligations.ChecksumIsTheSumModulo256 : Prop :=
  ∀ bs : List Byte, (cksum bs).toNat = (bs.map BitVec.toNat).sum % 256

/-- 41_checksum_crc.md R153: the check values of crc16, whose definition the spec takes from general knowledge but for the
polynomial (log 7). -/
def Obligations.CrcCheckValues : Prop :=
  crc16 [0x31#8, 0x32#8, 0x33#8, 0x34#8, 0x35#8, 0x36#8, 0x37#8, 0x38#8, 0x39#8] = 0xBB3D#16
  ∧ crc16 [0x01#8] = 0xC0C1#16
  ∧ crc16 [0x0A#8, 0x00#8, 0x00#8, 0x00#8, 0x00#8, 0x00#8, 0x01#8, 0x01#8, 0x4D#8, 0x01#8] = 0x8C84#16

/-- 41_checksum_crc.md R157 (c), which the spec marks as general knowledge: the CRC detects every error burst of at most 16
bits. A burst is a change of bits that stand within 16 neighbouring places, in the order in which crc16 takes them (byte by
byte, the least significant bit first: R152). -/
def Obligations.CrcDetectsBurstsOfSixteenBits : Prop :=
  ∀ (f g : List Byte) k, f.length = g.length → f ≠ g →
    (∀ j, (j < k ∨ k + 16 ≤ j) → ∀ x y, f[j / 8]? = some x → g[j / 8]? = some y → x.getLsbD (j % 8) = y.getLsbD (j % 8)) →
    crc16 f ≠ crc16 g

/-! ## DECODE -/

/-- 42_record_codec.md R171: DECODE without a frame, or with a payload shorter than a record, changes EVT only. -/
def Obligations.DecodeRefusesWithoutARecord : Prop :=
  ∀ s,
    (s.rxValid = false → exec .decode s = .next { s with evt := 0x09#8 })
    ∧ (s.rxValid = true → s.rxn.toNat < 34 → exec .decode s = .next { s with evt := 0x08#8 })

/-- 42_record_codec.md R172, 20_memory.md R62: with a whole record DECODE completes, copies it into BASE, and writes nothing
but MODE, FAN, FAN_FO, FAN_OTHER, STATUS, BASE, BASE_VALID and EVT. -/
def Obligations.DecodeCopiesTheRecordIntoBase : Prop :=
  ∀ s p, s.rxValid = true → 34 ≤ s.rxn.toNat → HoldsRecord s.rx 10 p →
    ∃ t, exec .decode s = .next t ∧ HoldsRecord t.base 0 p
    ∧ (∀ j, 24 ≤ j → t.base.read j = s.base.read j)
    ∧ t = { s with
        mode := t.mode, fan := t.fan, fanFo := t.fanFo, fanOther := t.fanOther, status := t.status, base := t.base,
        baseValid := true, evt := 0x07#8 }

/-- 42_record_codec.md R173: the mode a DECODE leaves in MODE and in STATUS. An unmapped code is no error: the DECODE gives
DECODED (0x07), and the record is in BASE. -/
def Obligations.DecodeMapsTheMode : Prop :=
  ∀ s t p, s.config.Wf → s.rxValid = true → 34 ≤ s.rxn.toNat → HoldsRecord s.rx 10 p → exec .decode s = .next t →
    (getBit p s.config.layout.power = false → t.mode = some .off)
    ∧ (∀ m x, getBit p s.config.layout.power = true → modeCode s.config.modeCode m = some x →
        p s.config.layout.mode = x → t.mode = some m)
    ∧ (getBit p s.config.layout.power = true →
        (∀ m, modeCode s.config.modeCode m ≠ some (p s.config.layout.mode)) → t.mode = s.mode)
    ∧ t.status.map StatusRecord.mode = some t.mode ∧ t.evt = 0x07#8 ∧ HoldsRecord t.base 0 p

/-- 42_record_codec.md R174, R176: the fan registers a DECODE leaves: a mapped code goes to FAN and to the memory of its
context only, an unmapped code changes none of the three. -/
def Obligations.DecodeMapsTheFan : Prop :=
  ∀ s t p, s.config.Wf → s.rxValid = true → 34 ≤ s.rxn.toNat → HoldsRecord s.rx 10 p → exec .decode s = .next t →
    (∀ f, p s.config.layout.fan = fanCode s.config.fanCode f →
      t.fan = some f
      ∧ (t.mode = some .fanOnly → t.fanFo = some f ∧ t.fanOther = s.fanOther)
      ∧ (t.mode ≠ some .fanOnly → t.fanFo = s.fanFo ∧ t.fanOther = some f))
    ∧ ((∀ f, p s.config.layout.fan ≠ fanCode s.config.fanCode f) →
      t.fan = s.fan ∧ t.fanFo = s.fanFo ∧ t.fanOther = s.fanOther)
    ∧ t.status.map StatusRecord.fan = some t.fan

/-- 42_record_codec.md R175, 30_encoding.md R99: the swing a DECODE leaves in STATUS, BOTH first, then VERTICAL. -/
def Obligations.DecodeDerivesTheSwing : Prop :=
  ∀ s t p, s.rxValid = true → 34 ≤ s.rxn.toNat → HoldsRecord s.rx 10 p → exec .decode s = .next t →
    (∀ both : Bool,
      (∀ o, s.config.layout.swingBoth = .byte o → (both = true ↔ p o ≠ 0x00#8)) →
      (∀ f, s.config.layout.swingBoth = .bit f → both = getBit p f) →
      (both = true → t.status.map StatusRecord.swing = some .both)
      ∧ (both = false → getBit p s.config.layout.swingV = true → t.status.map StatusRecord.swing = some .vertical)
      ∧ (both = false → getBit p s.config.layout.swingV = false → getBit p s.config.layout.swingH = true →
          t.status.map StatusRecord.swing = some .horizontal)
      ∧ (both = false → getBit p s.config.layout.swingV = false → getBit p s.config.layout.swingH = false →
          t.status.map StatusRecord.swing = some .off))

/-- 42_record_codec.md R177, R172: the temperatures and flags a DECODE leaves in STATUS; the target is an unbounded integer,
neither wrapped nor clamped. -/
def Obligations.DecodeReadsTemperaturesAndFlags : Prop :=
  ∀ s t p, s.rxValid = true → 34 ≤ s.rxn.toNat → HoldsRecord s.rx 10 p → exec .decode s = .next t →
    ∃ r, t.status = some r ∧ r.roomTemp = p s.config.layout.roomTemp
    ∧ r.target = (p s.config.layout.setpoint).toNat + s.config.bias
    ∧ r.displayOn = getBit p s.config.layout.display ∧ r.beeperSilent = getBit p s.config.layout.beeper
    ∧ r.power = getBit p s.config.layout.power

/-- 42_record_codec.md R198, which the spec derives from R176: a fan memory changes only by RESET or by a DECODE of its own
context, which writes the fan speed it decoded; the other memory then keeps its value. -/
def Obligations.FanMemoriesNeverMix : Prop :=
  ∀ i s t, exec i s = .next t → i ≠ .reset →
    (t.fanFo ≠ s.fanFo → i = .decode ∧ t.mode = some .fanOnly ∧ t.fanFo = t.fan ∧ t.fanOther = s.fanOther)
    ∧ (t.fanOther ≠ s.fanOther → i = .decode ∧ t.mode ≠ some .fanOnly ∧ t.fanOther = t.fan ∧ t.fanFo = s.fanFo)

/-! ## The pending intent -/

/-- 42_record_codec.md R185: SETINT is ignored before a status was decoded, and else replaces the whole intent. -/
def Obligations.SetintReplacesTheWholeIntent : Prop :=
  ∀ s (w : IntentWord), w.wf = true →
    (s.baseValid = false → exec (.setint w) s = .next { s with evt := 0x10#8 })
    ∧ (s.baseValid = true → ∃ i : Intent,
        exec (.setint w) s = .next { s with intent := i, intValid := true, evt := 0x0F#8 }
        ∧ i.mode = (if w.mp then [Mode.off, .auto, .cool, .heat, .dry, .fanOnly][w.mv.toNat]? else none)
        ∧ i.fan = (if w.fp then [Fan.auto, .low, .mid, .high][w.fv.toNat]? else none)
        ∧ i.swing = (if w.sp then [Swing.off, .vertical, .horizontal, .both][w.sv.toNat]? else none)
        ∧ i.temp = (if w.tp then some w.tv else none)
        ∧ i.preset = (if w.pp then some w.pv else none))

/-- 42_record_codec.md R187: CLRINT empties the intent in every state. -/
def Obligations.ClrintEmptiesTheIntent : Prop :=
  ∀ s, exec .clrint s =
    .next { s with intent := ⟨none, none, none, none, none⟩, intValid := false, evt := 0x11#8 }

/-! ## ENCODE -/

/-- 42_record_codec.md R190, R188: ENCODE without a baseline changes EVT only, whatever the intent holds; with one it
completes, puts a record into TXP, and writes nothing but TXP, TXP_VALID, ENC_FLAGS and EVT. -/
def Obligations.EncodeNeedsABaselineAndBuildsARecord : Prop :=
  ∀ s,
    (s.baseValid = false → exec .encode s = .next { s with evt := 0x0B#8 })
    ∧ (s.baseValid = true → HasRecord s.base 0 →
      ∃ t, exec .encode s = .next t ∧ HasRecord t.txp 0 ∧ (∀ j, 24 ≤ j → t.txp.read j = s.txp.read j)
      ∧ t = { s with txp := t.txp, txpValid := true, encFlags := t.encFlags, evt := 0x0A#8 })

/-- 42_record_codec.md R191: the power bit and the mode byte of the control record. -/
def Obligations.EncodeWritesTheMode : Prop :=
  ∀ s t p q, s.config.Wf → s.baseValid = true → HoldsRecord s.base 0 p → exec .encode s = .next t →
    HoldsRecord t.txp 0 q →
    (s.intValid = false ∨ s.intent.mode = none →
      getBit q s.config.layout.power = getBit p s.config.layout.power
      ∧ q s.config.layout.mode = p s.config.layout.mode)
    ∧ (s.intValid = true → s.intent.mode = some .off →
      getBit q s.config.layout.power = false ∧ q s.config.layout.mode = p s.config.layout.mode)
    ∧ (∀ m, s.intValid = true → s.intent.mode = some m → m ≠ .off →
      getBit q s.config.layout.power = true
      ∧ some (q s.config.layout.mode) = modeCode s.config.modeCode m)

/-- 42_record_codec.md R192, 10_state.md R39: the fan byte of the control record and FAN_REJ: AUTO is refused when the
effective mode (the intent's, else MODE) is fan-only. -/
def Obligations.EncodeWritesTheFan : Prop :=
  ∀ s t p q eff, s.config.Wf → s.baseValid = true → HoldsRecord s.base 0 p → exec .encode s = .next t →
    HoldsRecord t.txp 0 q →
    (s.intValid = true → ∀ m, s.intent.mode = some m → eff = some m) →
    (s.intValid = false ∨ s.intent.mode = none → eff = s.mode) →
    (s.intValid = false ∨ s.intent.fan = none →
      q s.config.layout.fan = p s.config.layout.fan ∧ t.encFlags.getLsbD 0 = false)
    ∧ (s.intValid = true → s.intent.fan = some .auto → eff = some .fanOnly →
      q s.config.layout.fan = p s.config.layout.fan ∧ t.encFlags.getLsbD 0 = true)
    ∧ (∀ f, s.intValid = true → s.intent.fan = some f → ¬ (f = .auto ∧ eff = some .fanOnly) →
      q s.config.layout.fan = fanCode s.config.fanCode f ∧ t.encFlags.getLsbD 0 = false)

/-- 42_record_codec.md R193, 30_encoding.md R99: the swing flags of the control record; BOTH clears the individual flags. -/
def Obligations.EncodeWritesTheSwing : Prop :=
  ∀ s t p q, s.config.Wf → s.baseValid = true → HoldsRecord s.base 0 p → exec .encode s = .next t →
    HoldsRecord t.txp 0 q →
    (s.intValid = false ∨ s.intent.swing = none →
      (∀ f, f ∈ s.config.layout.swingBoth.bits → getBit q f = getBit p f)
      ∧ getBit q s.config.layout.swingV = getBit p s.config.layout.swingV
      ∧ getBit q s.config.layout.swingH = getBit p s.config.layout.swingH)
    ∧ (∀ w, s.intValid = true → s.intent.swing = some w →
      (∀ o, s.config.layout.swingBoth = .byte o → q o = if w = .both then 0x01#8 else 0x00#8)
      ∧ (∀ f, s.config.layout.swingBoth = .bit f → getBit q f = decide (w = .both))
      ∧ getBit q s.config.layout.swingV = decide (w = .vertical)
      ∧ getBit q s.config.layout.swingH = decide (w = .horizontal))

/-- 42_record_codec.md R194, 10_state.md R39: the set-point byte of the control record and TEMP_REJ: a temperature within
[TEMP_MIN, TEMP_MAX] is written as (t − BIAS) mod 256, any other is refused. -/
def Obligations.EncodeWritesTheSetpoint : Prop :=
  ∀ s t p q, s.config.Wf → s.baseValid = true → HoldsRecord s.base 0 p → exec .encode s = .next t →
    HoldsRecord t.txp 0 q →
    (s.intValid = false ∨ s.intent.temp = none →
      q s.config.layout.setpoint = p s.config.layout.setpoint ∧ t.encFlags.getLsbD 1 = false)
    ∧ (∀ x : Byte, s.intValid = true → s.intent.temp = some x →
      s.config.tempMin ≤ x.toNat → x.toNat ≤ s.config.tempMax →
      ((q s.config.layout.setpoint).toNat : Int) = ((x.toNat : Int) - s.config.bias) % 256
      ∧ t.encFlags.getLsbD 1 = false)
    ∧ (∀ x : Byte, s.intValid = true → s.intent.temp = some x →
      ¬ (s.config.tempMin ≤ x.toNat ∧ x.toNat ≤ s.config.tempMax) →
      q s.config.layout.setpoint = p s.config.layout.setpoint ∧ t.encFlags.getLsbD 1 = true)

/-- 42_record_codec.md R195, R196, R178: the display and beeper flags of the control record always come from CFG, the room
temperature is the baseline's, and every reserved bit equals the same bit of the baseline. -/
def Obligations.EncodeSetsFlagsAndKeepsReservedBits : Prop :=
  ∀ s t p q, s.config.Wf → s.baseValid = true → HoldsRecord s.base 0 p → exec .encode s = .next t →
    HoldsRecord t.txp 0 q →
    getBit q s.config.layout.display = s.cfg.getLsbD 1 ∧ getBit q s.config.layout.beeper = s.cfg.getLsbD 2
    ∧ q s.config.layout.roomTemp = p s.config.layout.roomTemp
    ∧ ∀ f, Reserved s.config.layout f → getBit q f = getBit p f

/-- 42_record_codec.md R197, which the spec derives from R172, R190 and R195: without an intent, and with the configured flags
equal to the baseline's, ENCODE gives the baseline byte for byte, and rejects nothing. -/
def Obligations.EncodeWithoutIntentKeepsTheBaseline : Prop :=
  ∀ s t p, s.baseValid = true → HoldsRecord s.base 0 p → NoIntent s →
    s.cfg.getLsbD 1 = getBit p s.config.layout.display → s.cfg.getLsbD 2 = getBit p s.config.layout.beeper →
    exec .encode s = .next t → HoldsRecord t.txp 0 p ∧ t.encFlags = 0b00#2

/-- 42_record_codec.md R199: the preset has no wire effect: ENCODE does the same to every other piece of state whatever the
preset is, and leaves the preset as it is. -/
def Obligations.PresetHasNoWireEffect : Prop :=
  ∀ s t v, exec .encode s = .next t →
    exec .encode { s with intent := { s.intent with preset := v } } =
      .next { t with intent := { t.intent with preset := v } }

/-! ## BUILD -/

/-- 43_framer_control.md R210: BUILD with a payload but without a control record changes EVT only. -/
def Obligations.BuildRefusesWithoutAPayload : Prop :=
  ∀ s (ty a0 a1 : Byte), s.txpValid = false → exec (.build true ty a0 a1) s = .next { s with evt := 0x0D#8 }

/-- 43_framer_control.md R210: otherwise BUILD completes and TX holds markers, length, prefix, type, arguments, the payload
when PL is set, the checksum and, with CFG.CRC_EN, the CRC; it writes nothing but TX, TXLEN, TX_VALID and EVT, and no cell of
TX from TXLEN up (20_memory.md R63). TOO_LONG is unreachable with the parameters of 00_scope.md R7. -/
def Obligations.BuildMakesTheFrame : Prop :=
  ∀ s (pl : Bool) (ty a0 a1 : Byte) (payload body : List Byte), s.config.Wf →
    (pl = false → payload = []) →
    (pl = true → s.txpValid = true ∧ s.txp.readAll 0 24 = some payload) →
    body = [if pl then 0x22#8 else 0x0A#8, 0x00#8, 0x00#8, 0x00#8, 0x00#8, 0x00#8, 0x01#8, ty, a0, a1] ++ payload →
    ∃ t, exec (.build pl ty a0 a1) s = .next t
    ∧ t.txFrame = some ([0xFF#8, 0xFF#8] ++ body ++ [cksum body]
        ++ (if s.cfg.getLsbD 0 then [(crc16 body).extractLsb' 8 8, (crc16 body).extractLsb' 0 8] else []))
    ∧ (∀ j, t.txlen ≤ j → t.tx.read j = s.tx.read j)
    ∧ t = { s with tx := t.tx, txlen := t.txlen, txValid := true, evt := 0x0C#8 }

/-- 43_framer_control.md R210: the frame BUILD makes is exactly the frame the reader accepts: fed byte by byte from any header
search state it ends in FRAME_READY, and RX then holds it without its markers. -/
def Obligations.BuiltFrameIsAcceptedByTheReader : Prop :=
  ∀ s (pl : Bool) (ty a0 a1 : Byte), FscInv s → (∃ m, s.rstate = .hunt m) → (pl = true → s.txpValid = true) →
    ∃ t f es u, exec (.build pl ty a0 a1) s = .next t ∧ t.txFrame = some f ∧ runs (feeds f) t = some (es, u)
    ∧ es = List.replicate (f.length - 1) 0x01#8 ++ [0x02#8]
    ∧ u.rxFrame = some (f.drop 2) ∧ u.rxCrc = s.crcEn

/-- 42_record_codec.md R197, which the spec derives from R172, R190 and R195, the round trip: a status is decoded, and while
no intent is pending and the configured flags are the record's, its control record is encoded, framed, fed back and decoded:
STATUS and BASE come out as they were. -/
def Obligations.EncodedFrameDecodesToTheSameStatus : Prop :=
  ∀ s a p (ty a0 a1 : Byte), FscInv s → exec .decode s = .next a → a.evt = 0x07#8 → NoIntent a → HoldsRecord a.base 0 p →
    a.cfg.getLsbD 1 = getBit p a.config.layout.display → a.cfg.getLsbD 2 = getBit p a.config.layout.beeper →
    ∃ es f b c d e, exec .encode a = .next b ∧ exec (.build true ty a0 a1) b = .next c ∧ c.txFrame = some f
    ∧ runs (feeds f) c = some (es ++ [0x02#8], d) ∧ exec .decode d = .next e ∧ e.status = a.status
    ∧ HoldsRecord e.base 0 p

/-! ## Encoding, and what a step does -/

/-- 30_encoding.md R82 to R88: no field of a command word is lost: a well-formed command is decoded from its word. -/
def Obligations.DecodeOfEncodeIsTheCommand : Prop :=
  ∀ i, WellFormed i = true → decode (encode i) = .ok i

/-- 30_encoding.md R81 to R89: a word that decodes to a command is that command's only word, and the command is well formed.
-/
def Obligations.EncodeOfDecodeIsTheWord : Prop :=
  ∀ w i, decode w = .ok i → encode i = w ∧ WellFormed i = true

/-- 30_encoding.md R89: a word is ILLEGAL exactly under conditions (a) to (d), which are written here on the bits of the word;
being ILLEGAL is that the next step with it writes EVT <- ILLEGAL and nothing else (43_framer_control.md R217). Any other word
is a command that is not one of the constructors that stand for the reserved opcodes (log 4). -/
def Obligations.IllegalWordsAreExactlyThose : Prop :=
  ∀ (w : Word) s,
    let op := w >>> 28
    let bits := fun (hi lo : Nat) => (w >>> lo) &&& (BitVec.ofNat 32 (2 ^ (hi + 1 - lo) - 1))
    let illegalWord :=
      0xB#32 ≤ op
      ∨ (op ∈ [0x0#32, 0x2#32, 0x3#32, 0x6#32, 0x7#32, 0x8#32, 0xA#32] ∧ bits 27 0 ≠ 0#32)
      ∨ (op = 0x1#32 ∧ bits 27 8 ≠ 0#32) ∨ (op = 0x4#32 ∧ bits 27 3 ≠ 0#32) ∨ (op = 0x9#32 ∧ bits 27 25 ≠ 0#32)
      ∨ (op = 0x5#32 ∧ (bits 27 25 ≠ 0#32 ∨ bits 11 11 ≠ 0#32 ∨ bits 7 7 ≠ 0#32
          ∨ (bits 3 3 = 1#32 ∧ 6#32 ≤ bits 2 0)
          ∨ (bits 3 3 = 0#32 ∧ bits 2 0 ≠ 0#32) ∨ (bits 6 6 = 0#32 ∧ bits 5 4 ≠ 0#32)
          ∨ (bits 10 10 = 0#32 ∧ bits 9 8 ≠ 0#32) ∨ (bits 20 20 = 0#32 ∧ bits 19 12 ≠ 0#32)
          ∨ (bits 24 24 = 0#32 ∧ bits 23 21 ≠ 0#32)))
    (illegalWord → stepWord w s = .next { s with evt := 0x14#8 })
    ∧ (¬ illegalWord → ∃ i, decode w = .ok i ∧ WellFormed i = true
        ∧ ∀ x : BitVec 28, i ∉ [Instr.reservedB x, .reservedC x, .reservedD x, .reservedE x, .reservedF x])

/-- 95_test_vectors.md V-CW-1: words written out from the encodings of 30_encoding.md decode to what they stand for. -/
def Obligations.SampleWordsDecode : Prop :=
  decode 0x100000FF#32 = .ok (.feed 0xFF#8)
  ∧ decode 0x20000000#32 = .ok .tick
  ∧ decode 0x40000003#32 = .ok (.setcfg false true true)
  ∧ decode 0x5011600A#32 = .ok (.setint ⟨false, 0#3, true, 22#8, false, 0#2, false, 0#2, true, 2#3⟩)
  ∧ decode 0x70000000#32 = .ok .decode
  ∧ decode 0x91016001#32 = .ok (.build true 0x01#8 0x60#8 0x01#8)

/-- 00_scope.md R15, 30_encoding.md R80: a step takes the oldest word at the command port and does exactly the command it
decodes to; a word that decodes to none writes EVT <- ILLEGAL and nothing else. With no word at the port the state is held
(60_exceptions.md R255). The port as a queue is the model's choice (log 2). -/
def Obligations.StepRunsTheDecodedCommand : Prop :=
  ∀ s,
    (∀ w rest i, s.port = w :: rest → decode w = .ok i → step s = exec i { s with port := rest })
    ∧ (∀ w rest e, s.port = w :: rest → decode w = .error e → step s = .next { s with port := rest, evt := 0x14#8 })
    ∧ (s.port = [] → step s = .next s)
    ∧ (∀ i, WellFormed i = true → step (nextWord (encode i) s) = exec i s)

/-! ## Rules about every command -/

/-- 10_state.md R44 and 40_frame_reader.md R134, which the spec derives from other rules, and 10_state.md R23 to R40,
20_memory.md R60 to R63: which commands, beside RESET, can change each register, flag and buffer of 10_state.md R20 but EVT.
-/
def Obligations.EveryRegisterHasItsWriters : Prop :=
  ∀ i s t, exec i s = .next t → i ≠ .reset →
    ((t.rstate ≠ s.rstate ∨ t.idle ≠ s.idle) → i = .tick ∨ i = .hunt ∨ ∃ b, i = .feed b)
    ∧ ((t.rxn ≠ s.rxn ∨ t.sum ≠ s.sum ∨ t.crcL ≠ s.crcL ∨ t.rxValid ≠ s.rxValid ∨ t.rxCrc ≠ s.rxCrc
        ∨ ∃ j, t.rx.read j ≠ s.rx.read j) → ∃ b, i = .feed b)
    ∧ (t.cfg ≠ s.cfg → ∃ bs don ce, i = .setcfg bs don ce)
    ∧ ((t.baseValid ≠ s.baseValid ∨ (∃ j, t.base.read j ≠ s.base.read j) ∨ t.status ≠ s.status ∨ t.mode ≠ s.mode
        ∨ t.fan ≠ s.fan ∨ t.fanFo ≠ s.fanFo ∨ t.fanOther ≠ s.fanOther) → i = .decode)
    ∧ ((t.intValid ≠ s.intValid ∨ t.intent ≠ s.intent) → i = .clrint ∨ ∃ w, i = .setint w)
    ∧ ((t.txpValid ≠ s.txpValid ∨ t.encFlags ≠ s.encFlags ∨ ∃ j, t.txp.read j ≠ s.txp.read j) → i = .encode)
    ∧ ((t.txValid ≠ s.txValid ∨ t.txlen ≠ s.txlen ∨ ∃ j, t.tx.read j ≠ s.tx.read j) →
        ∃ pl ty a0 a1, i = .build pl ty a0 a1)

/-- 60_exceptions.md R241: the events each command can end with, and that no reserved code is among them. -/
def Obligations.EveryCommandEndsWithOneOfItsEvents : Prop :=
  ∀ i s t, WellFormed i = true → exec i s = .next t →
    t.evt ∈ (match i with
      | .nop => [0x00#8]
      | .feed _ => [0x01#8, 0x02#8, 0x03#8, 0x04#8, 0x05#8]
      | .tick => [0x00#8, 0x06#8]
      | .hunt => [0x00#8]
      | .setcfg _ _ _ => [0x12#8]
      | .setint _ => [0x0F#8, 0x10#8]
      | .clrint => [0x11#8]
      | .decode => [0x07#8, 0x08#8, 0x09#8]
      | .encode => [0x0A#8, 0x0B#8]
      | .build _ _ _ _ => [0x0C#8, 0x0D#8, 0x0E#8]
      | .reset => [0x13#8]
      | .reservedB _ => [0x14#8]
      | .reservedC _ => [0x14#8]
      | .reservedD _ => [0x14#8]
      | .reservedE _ => [0x14#8]
      | .reservedF _ => [0x14#8])

/-- 10_state.md R42: the bits of STAT. -/
def Obligations.StatShowsTheFlags : Prop :=
  ∀ s : State, s.stat.getLsbD 0 = s.rxValid ∧ s.stat.getLsbD 1 = s.rxCrc ∧ s.stat.getLsbD 2 = s.baseValid
    ∧ s.stat.getLsbD 3 = s.intValid ∧ s.stat.getLsbD 4 = s.txpValid ∧ s.stat.getLsbD 5 = s.txValid
    ∧ (s.stat.getLsbD 6 = true ↔ (∃ i, s.rstate = .body i) ∨ ∃ k, s.rstate = .crcb k) ∧ s.stat.getLsbD 7 = false

/-- 10_state.md R46, R47 (which the spec derives from R23 to R46): the invariant holds after reset, for all parameters of
00_scope.md R7. That it holds at `State.reset` rests on the parameters `State.reset` carries, which are the model's choice
(log 1). -/
def Obligations.InvariantHoldsAfterReset : Prop :=
  (∀ c : Config, c.Wf → FscInv (State.resetWith c)) ∧ FscInv State.reset

/-- 10_state.md R47, which the spec derives from R23 to R46 and the command rules, and what those rules need beyond it: every
step from a state that meets the invariant leads to one that does. The step also leaves the parameters as they are. -/
def Obligations.EveryStepKeepsTheInvariant : Prop :=
  ∀ s t, FscInv s → step s = .next t → FscInv t ∧ t.config = s.config

/-- 60_exceptions.md R240: FSC never traps, halts or refuses to take the next command. In every state that meets the invariant
each command completes, and so does each step, whatever word is at the port. -/
def Obligations.NoCommandEverStopsTheMachine : Prop :=
  ∀ s, FscInv s → (∀ i, ∃ t, exec i s = .next t) ∧ ∃ t, step s = .next t

/-- 10_state.md R47, which the spec derives from R23 to R46 and the command rules: the invariants (a) to (g) hold in every
state that reset and the commands can reach, for all parameters of 00_scope.md R7 and whatever words the host issues. -/
def Obligations.ReachableStatesSatisfyR47 : Prop :=
  ∀ c : Config, c.Wf → ∀ s, Reachable c s → R47 s

/-- 20_memory.md R60, R61, and the canonical form of a buffer, which is the model's choice (log 5): the buffers stay in
canonical form and within their cells, from every state in which they are. -/
def Obligations.EveryStepKeepsTheBuffersInOrder : Prop :=
  ∀ s t, s.config.Wf → BuffersOk s → step s = .next t → BuffersOk t
end

