-- ==== Sys2Proof/Laws/Memory.lean ====
section
/-! SUPPORT. The laws of the byte buffers: read after write, the canonical form, and reading and writing several bytes. -/

namespace Sys2Proof.Machine

/-! ## Read after write -/

@[simp] theorem Memory.read_nil (i : Nat) : Memory.read [] i = none := rfl

theorem Memory.read_write (m : Memory) (i j : Nat) (b : Byte) :
    (m.write i b).read j = if j = i then some b else m.read j := by
  induction m with
  | nil => by_cases h : i = j <;> simp [Memory.write, Memory.read, h, eq_comm]
  | cons c m ih =>
    obtain ⟨a, v⟩ := c
    simp only [Memory.write]
    split
    · by_cases h : i = j <;> simp [Memory.read, h, eq_comm]
    · split
      · next h => subst h; by_cases h : i = j <;> simp [Memory.read, h, eq_comm]
      · simp only [Memory.read, ih]
        by_cases h : a = j
        · have hj : j ≠ i := by omega
          simp [h, hj]
        · simp [h]

@[simp] theorem Memory.read_write_same (m : Memory) (i : Nat) (b : Byte) : (m.write i b).read i = some b := by
  simp [Memory.read_write]

theorem Memory.read_write_of_ne (m : Memory) {i j : Nat} (b : Byte) (h : j ≠ i) : (m.write i b).read j = m.read j := by
  simp [Memory.read_write, h]

/-! ## The canonical form -/

theorem risingFrom_write {lo i : Nat} {m : Memory} (b : Byte) (h : risingFrom lo m = true) (hi : lo ≤ i) :
    risingFrom lo (m.write i b) = true := by
  induction m generalizing lo with
  | nil => simp [Memory.write, risingFrom, hi]
  | cons c m ih =>
    obtain ⟨a, v⟩ := c
    simp only [risingFrom, Bool.and_eq_true, decide_eq_true_eq] at h
    simp only [Memory.write]
    split
    · simp [risingFrom, hi, h.2]; omega
    · split
      · next hia => subst hia; simp [risingFrom, h.1, h.2]
      · simp only [risingFrom, Bool.and_eq_true, decide_eq_true_eq]
        exact ⟨h.1, ih h.2 (by omega)⟩

theorem Memory.wf_nil : Memory.wf [] = true := rfl

/-- Writing a byte keeps the canonical form. -/
theorem Memory.wf_write {m : Memory} (i : Nat) (b : Byte) (h : m.wf = true) : (m.write i b).wf = true :=
  risingFrom_write b h (Nat.zero_le i)

/-- Writing a cell of the buffer keeps every listed index a cell of it. -/
theorem Memory.within_write {size : Nat} {m : Memory} {i : Nat} (b : Byte) (h : m.within size = true) (hi : i < size) :
    (m.write i b).within size = true := by
  induction m with
  | nil => simpa [Memory.write, Memory.within] using hi
  | cons c m ih =>
    obtain ⟨a, v⟩ := c
    simp only [Memory.within, List.all_cons, Bool.and_eq_true, decide_eq_true_eq] at h ih
    simp only [Memory.write]
    split
    · simp only [Memory.within, List.all_cons, Bool.and_eq_true, decide_eq_true_eq]
      exact ⟨hi, h.1, h.2⟩
    · split
      · simp only [Memory.within, List.all_cons, Bool.and_eq_true, decide_eq_true_eq]
        exact ⟨hi, h.2⟩
      · simp only [Memory.within, List.all_cons, Bool.and_eq_true, decide_eq_true_eq]
        exact ⟨h.1, ih h.2⟩

theorem BufferOk.nil (size : Nat) : BufferOk size [] := ⟨rfl, rfl⟩

/-- Writing a cell of the buffer keeps it in order. -/
theorem BufferOk.write {size : Nat} {m : Memory} {i : Nat} (b : Byte) (h : BufferOk size m) (hi : i < size) :
    BufferOk size (m.write i b) :=
  ⟨Memory.wf_write i b h.1, Memory.within_write b h.2 hi⟩

/-! ## Writing several bytes -/

theorem Memory.read_writeAll (m : Memory) (i j : Nat) (bs : List Byte) :
    (m.writeAll i bs).read j = if i ≤ j ∧ j < i + bs.length then bs[j - i]? else m.read j := by
  induction bs generalizing m i with
  | nil =>
    have : ¬ (i ≤ j ∧ j < i + ([] : List Byte).length) := by simp
    rw [if_neg this]; rfl
  | cons b bs ih =>
    simp only [Memory.writeAll, ih, Memory.read_write, List.length_cons]
    by_cases hj : j = i
    · subst hj
      have h2 : j ≤ j ∧ j < j + (bs.length + 1) := by omega
      simp [h2]
    · by_cases h : i + 1 ≤ j ∧ j < i + 1 + bs.length
      · have h2 : i ≤ j ∧ j < i + (bs.length + 1) := by omega
        obtain ⟨k, rfl⟩ : ∃ k, j = i + 1 + k := ⟨j - (i + 1), by omega⟩
        have e1 : i + 1 + k - (i + 1) = k := by omega
        have e2 : i + 1 + k - i = k + 1 := by omega
        rw [if_pos h, if_pos h2, e1, e2, List.getElem?_cons_succ]
      · have h2 : ¬ (i ≤ j ∧ j < i + (bs.length + 1)) := by omega
        rw [if_neg h, if_neg h2, if_neg hj]

theorem BufferOk.writeAll {size : Nat} {m : Memory} {i : Nat} {bs : List Byte} (h : BufferOk size m)
    (hi : i + bs.length ≤ size) : BufferOk size (m.writeAll i bs) := by
  induction bs generalizing m i with
  | nil => exact h
  | cons b bs ih =>
    simp only [List.length_cons] at hi
    exact ih (h.write b (by omega)) (by omega)

/-! ## Reading several bytes -/

/-- `X[i .. i + n - 1]` is the list of the bytes there, when each of those cells holds one. -/
theorem Memory.readAll_eq_some {m : Memory} {i n : Nat} {bs : List Byte} :
    m.readAll i n = some bs ↔ bs.length = n ∧ ∀ j, j < n → m.read (i + j) = bs[j]? := by
  induction n generalizing i bs with
  | zero => cases bs <;> simp [Memory.readAll]
  | succ n ih =>
    simp only [Memory.readAll]
    constructor
    · intro h
      split at h
      · next b rest hb hr =>
        obtain rfl : b :: rest = bs := by simpa using h
        obtain ⟨hlen, hall⟩ := ih.1 hr
        refine ⟨by simp [hlen], fun j hj => ?_⟩
        cases j with
        | zero => simpa using hb
        | succ j =>
          have := hall j (by omega)
          rw [List.getElem?_cons_succ, ← this]
          congr 1; omega
      · exact absurd h (by simp)
    · rintro ⟨hlen, hall⟩
      cases bs with
      | nil => simp at hlen
      | cons b rest =>
        have hb : m.read i = some b := by simpa using hall 0 (by omega)
        have hr : m.readAll (i + 1) n = some rest := by
          refine ih.2 ⟨by simpa using hlen, fun j hj => ?_⟩
          have := hall (j + 1) (by omega)
          rw [List.getElem?_cons_succ] at this
          rw [← this]; congr 1; omega
        simp [hb, hr]

theorem Memory.readAll_length {m : Memory} {i n : Nat} {bs : List Byte} (h : m.readAll i n = some bs) : bs.length = n :=
  (Memory.readAll_eq_some.1 h).1

theorem Memory.read_of_readAll {m : Memory} {i n : Nat} {bs : List Byte} (h : m.readAll i n = some bs) {j : Nat}
    (hj : j < n) : m.read (i + j) = bs[j]? :=
  (Memory.readAll_eq_some.1 h).2 j hj

/-- Reading depends only on the cells read. -/
theorem Memory.readAll_congr {m m' : Memory} {i n : Nat} (h : ∀ j, j < n → m'.read (i + j) = m.read (i + j)) :
    m'.readAll i n = m.readAll i n := by
  induction n generalizing i with
  | zero => rfl
  | succ n ih =>
    have h0 : m'.read i = m.read i := by simpa using h 0 (by omega)
    have hr : m'.readAll (i + 1) n = m.readAll (i + 1) n := ih fun j hj => by
      have := h (j + 1) (by omega)
      rwa [show i + (j + 1) = i + 1 + j by omega] at this
    simp [Memory.readAll, h0, hr]

/-- A byte written just past the cells read is read after them. -/
theorem Memory.readAll_snoc {m : Memory} {i n : Nat} {bs : List Byte} (h : m.readAll i n = some bs) (b : Byte) :
    (m.write (i + n) b).readAll i (n + 1) = some (bs ++ [b]) := by
  obtain ⟨hlen, hall⟩ := Memory.readAll_eq_some.1 h
  refine Memory.readAll_eq_some.2 ⟨by simp [hlen], fun j hj => ?_⟩
  by_cases hjn : j = n
  · subst hjn; subst hlen; simp
  · have hlt : j < n := by omega
    rw [Memory.read_write_of_ne _ _ (by omega), hall j hlt, List.getElem?_append_left (by omega)]

/-- Fewer bytes of a range that can be read. -/
theorem Memory.readAll_take {m : Memory} {i n k : Nat} {bs : List Byte} (h : m.readAll i n = some bs) (hk : k ≤ n) :
    m.readAll i k = some (bs.take k) := by
  obtain ⟨hlen, hall⟩ := Memory.readAll_eq_some.1 h
  refine Memory.readAll_eq_some.2 ⟨by simp [hlen, hk], fun j hj => ?_⟩
  rw [hall j (by omega), List.getElem?_take_of_lt hj]

/-- What is written is what is read back. -/
theorem Memory.readAll_writeAll (m : Memory) (i : Nat) (bs : List Byte) :
    (m.writeAll i bs).readAll i bs.length = some bs := by
  refine Memory.readAll_eq_some.2 ⟨rfl, fun j hj => ?_⟩
  have h : i ≤ i + j ∧ i + j < i + bs.length := by omega
  rw [Memory.read_writeAll, if_pos h, show i + j - i = j by omega]

/-! ## Records -/

theorem Memory.readRecord_eq_some {m : Memory} {i : Nat} {p : Record} : m.readRecord i = some p ↔ HoldsRecord m i p := by
  unfold Memory.readRecord HoldsRecord
  split
  · next h =>
    constructor
    · intro e j
      obtain rfl := Option.some.inj e
      simp
    · intro e
      congr 1
      funext j
      simp [e j]
  · next h =>
    simp only [reduceCtorEq, false_iff]
    intro e
    exact h fun j => by simp [e j]

@[simp] theorem Record.bytes_length (p : Record) : p.bytes.length = 24 := by simp [Record.bytes]

theorem Record.bytes_getElem? (p : Record) (j : Fin 24) : p.bytes[j.val]? = some (p j) := by
  rw [Record.bytes, List.getElem?_ofFn]
  simp

/-- A buffer a record was written to holds it. -/
theorem HoldsRecord.writeAll (m : Memory) (i : Nat) (p : Record) : HoldsRecord (m.writeAll i p.bytes) i p := by
  intro j
  have h : i ≤ i + j.val ∧ i + j.val < i + p.bytes.length := by simp
  rw [Memory.read_writeAll, if_pos h, show i + j.val - i = j.val by omega, Record.bytes_getElem?]

/-- 24 bytes that can be read are a record. -/
theorem exists_record_of_readAll {m : Memory} {i : Nat} {bs : List Byte} (h : m.readAll i 24 = some bs) :
    ∃ p : Record, HoldsRecord m i p ∧ p.bytes = bs := by
  obtain ⟨hl, ha⟩ := Memory.readAll_eq_some.1 h
  refine ⟨fun j => bs[j.val], fun j => ?_, ?_⟩
  · rw [ha j.val j.isLt, List.getElem?_eq_getElem]
  · apply List.ext_getElem?
    intro j
    by_cases hj : j < 24
    · rw [Record.bytes_getElem? _ ⟨j, hj⟩, List.getElem?_eq_getElem]
    · rw [List.getElem?_eq_none (by simp; omega), List.getElem?_eq_none (by omega)]

/-- The record a buffer holds is one record. -/
theorem HoldsRecord.unique {m : Memory} {i : Nat} {p q : Record} (hp : HoldsRecord m i p) (hq : HoldsRecord m i q) :
    p = q := by
  funext j
  exact Option.some.inj ((hp j).symm.trans (hq j))

end Sys2Proof.Machine
end

