-- ==== Sys2Proof/Laws/Record.lean ====
section
/-! SUPPORT. The laws of the fields of a record: what a written bit or byte reads as, and what it leaves alone. -/

namespace Sys2Proof.Machine

/-- Every bit of a byte after one was written. -/
theorem getLsbD_withBit (b : Byte) (k : Fin 8) (v : Bool) (j : Fin 8) :
    (withBit b k v).getLsbD j.val = if j = k then v else b.getLsbD j.val := by
  have hj := j.isLt
  have hm : (bitMask k).getLsbD j.val = decide (j = k) := by
    revert j k; decide
  cases v
  · simp only [withBit, Bool.false_eq_true, if_false, BitVec.getLsbD_and, BitVec.getLsbD_not, hm, hj]
    by_cases h : j = k <;> simp [h]
  · simp only [withBit, if_true, BitVec.getLsbD_or, hm]
    by_cases h : j = k <;> simp [h]

/-- Every bit of a record after one was written. -/
theorem getBit_setBit (p : Record) (f g : BitPos) (v : Bool) :
    getBit (setBit p f v) g = if g = f then v else getBit p g := by
  obtain ⟨fo, fb⟩ := f
  obtain ⟨go, gb⟩ := g
  simp only [getBit, setBit, setByte]
  by_cases ho : go = fo
  · subst ho
    simp only [if_true, getLsbD_withBit, BitPos.mk.injEq, true_and]
  · simp [ho]

@[simp] theorem setByte_same (p : Record) (o : Fin 24) (v : Byte) : setByte p o v o = v := by simp [setByte]

theorem setByte_of_ne (p : Record) {o j : Fin 24} (v : Byte) (h : j ≠ o) : setByte p o v j = p j := by
  simp [setByte, h]

theorem setBit_of_ne (p : Record) {f : BitPos} {j : Fin 24} (v : Bool) (h : j ≠ f.off) : setBit p f v j = p j :=
  setByte_of_ne p _ h

/-- Every bit of a record after a byte was written. -/
theorem getBit_setByte (p : Record) (o : Fin 24) (v : Byte) (g : BitPos) :
    getBit (setByte p o v) g = if g.off = o then v.getLsbD g.bit.val else getBit p g := by
  simp only [getBit, setByte]
  split <;> rfl

/-- Two records with the same bits are equal. -/
theorem record_ext {p q : Record} (h : ∀ f, getBit p f = getBit q f) : p = q := by
  funext j
  apply BitVec.eq_of_getLsbD_eq
  intro i hi
  exact h ⟨j, ⟨i, hi⟩⟩

/-- A bit written with the value it has changes nothing. -/
theorem setBit_self (p : Record) (f : BitPos) : setBit p f (getBit p f) = p :=
  record_ext fun g => by
    rw [getBit_setBit]
    split
    · next h => rw [h]
    · rfl

/-- A bit of a byte field is in its list of bits. -/
theorem mem_byteBits {o : Fin 24} {f : BitPos} : f ∈ byteBits o ↔ f.off = o := by
  obtain ⟨fo, fb⟩ := f
  simp only [byteBits, List.mem_map, List.mem_finRange, true_and, BitPos.mk.injEq]
  constructor
  · rintro ⟨b, h, -⟩; exact h.symm
  · rintro rfl; exact ⟨fb, rfl, rfl⟩

/-- Every bit of a record after SWING_BOTH was written: only bits of SWING_BOTH can differ. -/
theorem getBit_setBoth_of_not_mem (p : Record) {f : BothPos} {g : BitPos} (v : Bool) (h : g ∉ f.bits) :
    getBit (setBoth p f v) g = getBit p g := by
  cases f with
  | byte o =>
    have : g.off ≠ o := fun e => h (mem_byteBits.2 e)
    simp [setBoth, getBit_setByte, this]
  | bit q =>
    have : g ≠ q := by simpa [BothPos.bits] using h
    simp [setBoth, getBit_setBit, this]

/-- SWING_BOTH reads as it was written (30_encoding.md R99). -/
@[simp] theorem getBoth_setBoth (p : Record) (f : BothPos) (v : Bool) : getBoth (setBoth p f v) f = v := by
  cases f with
  | byte o => cases v <;> simp [getBoth, setBoth]
  | bit q => simp [getBoth, setBoth, getBit_setBit]

/-- SWING_BOTH reads the bits of SWING_BOTH only. -/
theorem getBoth_congr {p q : Record} {f : BothPos} (h : ∀ g, g ∈ f.bits → getBit p g = getBit q g) :
    getBoth p f = getBoth q f := by
  cases f with
  | byte o =>
    have : p o = q o := by
      apply BitVec.eq_of_getLsbD_eq
      intro i hi
      exact h ⟨o, ⟨i, hi⟩⟩ (mem_byteBits.2 rfl)
    simp [getBoth, this]
  | bit b => exact h b (by simp [BothPos.bits])

/-- A byte field reads its own bits only. -/
theorem byte_congr {p q : Record} {o : Fin 24} (h : ∀ g : BitPos, g.off = o → getBit p g = getBit q g) : p o = q o := by
  apply BitVec.eq_of_getLsbD_eq
  intro i hi
  exact h ⟨o, ⟨i, hi⟩⟩ rfl

end Sys2Proof.Machine
end

