-- ==== Sys2Proof/Laws/State.lean ====
section
/-! SUPPORT. One lemma for each field of State under each named update, so that no later proof unfolds one: `emit` writes EVT
only, `issue` and `nextWord` write the command port only. -/

namespace Sys2Proof.Machine

/-! ## emit -/

@[simp] theorem emit_rstate (e : Event) (s : State) : (emit e s).rstate = s.rstate := rfl
@[simp] theorem emit_idle (e : Event) (s : State) : (emit e s).idle = s.idle := rfl
@[simp] theorem emit_rxn (e : Event) (s : State) : (emit e s).rxn = s.rxn := rfl
@[simp] theorem emit_sum (e : Event) (s : State) : (emit e s).sum = s.sum := rfl
@[simp] theorem emit_crcL (e : Event) (s : State) : (emit e s).crcL = s.crcL := rfl
@[simp] theorem emit_rxValid (e : Event) (s : State) : (emit e s).rxValid = s.rxValid := rfl
@[simp] theorem emit_rxCrc (e : Event) (s : State) : (emit e s).rxCrc = s.rxCrc := rfl
@[simp] theorem emit_rx (e : Event) (s : State) : (emit e s).rx = s.rx := rfl
@[simp] theorem emit_cfg (e : Event) (s : State) : (emit e s).cfg = s.cfg := rfl
@[simp] theorem emit_baseValid (e : Event) (s : State) : (emit e s).baseValid = s.baseValid := rfl
@[simp] theorem emit_base (e : Event) (s : State) : (emit e s).base = s.base := rfl
@[simp] theorem emit_mode (e : Event) (s : State) : (emit e s).mode = s.mode := rfl
@[simp] theorem emit_fan (e : Event) (s : State) : (emit e s).fan = s.fan := rfl
@[simp] theorem emit_fanFo (e : Event) (s : State) : (emit e s).fanFo = s.fanFo := rfl
@[simp] theorem emit_fanOther (e : Event) (s : State) : (emit e s).fanOther = s.fanOther := rfl
@[simp] theorem emit_status (e : Event) (s : State) : (emit e s).status = s.status := rfl
@[simp] theorem emit_intent (e : Event) (s : State) : (emit e s).intent = s.intent := rfl
@[simp] theorem emit_intValid (e : Event) (s : State) : (emit e s).intValid = s.intValid := rfl
@[simp] theorem emit_txpValid (e : Event) (s : State) : (emit e s).txpValid = s.txpValid := rfl
@[simp] theorem emit_txp (e : Event) (s : State) : (emit e s).txp = s.txp := rfl
@[simp] theorem emit_encFlags (e : Event) (s : State) : (emit e s).encFlags = s.encFlags := rfl
@[simp] theorem emit_txValid (e : Event) (s : State) : (emit e s).txValid = s.txValid := rfl
@[simp] theorem emit_txlen (e : Event) (s : State) : (emit e s).txlen = s.txlen := rfl
@[simp] theorem emit_tx (e : Event) (s : State) : (emit e s).tx = s.tx := rfl
@[simp] theorem emit_evt (e : Event) (s : State) : (emit e s).evt = e.code := rfl
@[simp] theorem emit_config (e : Event) (s : State) : (emit e s).config = s.config := rfl
@[simp] theorem emit_port (e : Event) (s : State) : (emit e s).port = s.port := rfl

/-! ## issue -/

@[simp] theorem issue_rstate (ws : List Word) (s : State) : (issue ws s).rstate = s.rstate := rfl
@[simp] theorem issue_idle (ws : List Word) (s : State) : (issue ws s).idle = s.idle := rfl
@[simp] theorem issue_rxn (ws : List Word) (s : State) : (issue ws s).rxn = s.rxn := rfl
@[simp] theorem issue_sum (ws : List Word) (s : State) : (issue ws s).sum = s.sum := rfl
@[simp] theorem issue_crcL (ws : List Word) (s : State) : (issue ws s).crcL = s.crcL := rfl
@[simp] theorem issue_rxValid (ws : List Word) (s : State) : (issue ws s).rxValid = s.rxValid := rfl
@[simp] theorem issue_rxCrc (ws : List Word) (s : State) : (issue ws s).rxCrc = s.rxCrc := rfl
@[simp] theorem issue_rx (ws : List Word) (s : State) : (issue ws s).rx = s.rx := rfl
@[simp] theorem issue_cfg (ws : List Word) (s : State) : (issue ws s).cfg = s.cfg := rfl
@[simp] theorem issue_baseValid (ws : List Word) (s : State) : (issue ws s).baseValid = s.baseValid := rfl
@[simp] theorem issue_base (ws : List Word) (s : State) : (issue ws s).base = s.base := rfl
@[simp] theorem issue_mode (ws : List Word) (s : State) : (issue ws s).mode = s.mode := rfl
@[simp] theorem issue_fan (ws : List Word) (s : State) : (issue ws s).fan = s.fan := rfl
@[simp] theorem issue_fanFo (ws : List Word) (s : State) : (issue ws s).fanFo = s.fanFo := rfl
@[simp] theorem issue_fanOther (ws : List Word) (s : State) : (issue ws s).fanOther = s.fanOther := rfl
@[simp] theorem issue_status (ws : List Word) (s : State) : (issue ws s).status = s.status := rfl
@[simp] theorem issue_intent (ws : List Word) (s : State) : (issue ws s).intent = s.intent := rfl
@[simp] theorem issue_intValid (ws : List Word) (s : State) : (issue ws s).intValid = s.intValid := rfl
@[simp] theorem issue_txpValid (ws : List Word) (s : State) : (issue ws s).txpValid = s.txpValid := rfl
@[simp] theorem issue_txp (ws : List Word) (s : State) : (issue ws s).txp = s.txp := rfl
@[simp] theorem issue_encFlags (ws : List Word) (s : State) : (issue ws s).encFlags = s.encFlags := rfl
@[simp] theorem issue_txValid (ws : List Word) (s : State) : (issue ws s).txValid = s.txValid := rfl
@[simp] theorem issue_txlen (ws : List Word) (s : State) : (issue ws s).txlen = s.txlen := rfl
@[simp] theorem issue_tx (ws : List Word) (s : State) : (issue ws s).tx = s.tx := rfl
@[simp] theorem issue_evt (ws : List Word) (s : State) : (issue ws s).evt = s.evt := rfl
@[simp] theorem issue_config (ws : List Word) (s : State) : (issue ws s).config = s.config := rfl
@[simp] theorem issue_port (ws : List Word) (s : State) : (issue ws s).port = s.port ++ ws := rfl

/-! ## nextWord -/

@[simp] theorem nextWord_rstate (w : Word) (s : State) : (nextWord w s).rstate = s.rstate := rfl
@[simp] theorem nextWord_idle (w : Word) (s : State) : (nextWord w s).idle = s.idle := rfl
@[simp] theorem nextWord_rxn (w : Word) (s : State) : (nextWord w s).rxn = s.rxn := rfl
@[simp] theorem nextWord_sum (w : Word) (s : State) : (nextWord w s).sum = s.sum := rfl
@[simp] theorem nextWord_crcL (w : Word) (s : State) : (nextWord w s).crcL = s.crcL := rfl
@[simp] theorem nextWord_rxValid (w : Word) (s : State) : (nextWord w s).rxValid = s.rxValid := rfl
@[simp] theorem nextWord_rxCrc (w : Word) (s : State) : (nextWord w s).rxCrc = s.rxCrc := rfl
@[simp] theorem nextWord_rx (w : Word) (s : State) : (nextWord w s).rx = s.rx := rfl
@[simp] theorem nextWord_cfg (w : Word) (s : State) : (nextWord w s).cfg = s.cfg := rfl
@[simp] theorem nextWord_baseValid (w : Word) (s : State) : (nextWord w s).baseValid = s.baseValid := rfl
@[simp] theorem nextWord_base (w : Word) (s : State) : (nextWord w s).base = s.base := rfl
@[simp] theorem nextWord_mode (w : Word) (s : State) : (nextWord w s).mode = s.mode := rfl
@[simp] theorem nextWord_fan (w : Word) (s : State) : (nextWord w s).fan = s.fan := rfl
@[simp] theorem nextWord_fanFo (w : Word) (s : State) : (nextWord w s).fanFo = s.fanFo := rfl
@[simp] theorem nextWord_fanOther (w : Word) (s : State) : (nextWord w s).fanOther = s.fanOther := rfl
@[simp] theorem nextWord_status (w : Word) (s : State) : (nextWord w s).status = s.status := rfl
@[simp] theorem nextWord_intent (w : Word) (s : State) : (nextWord w s).intent = s.intent := rfl
@[simp] theorem nextWord_intValid (w : Word) (s : State) : (nextWord w s).intValid = s.intValid := rfl
@[simp] theorem nextWord_txpValid (w : Word) (s : State) : (nextWord w s).txpValid = s.txpValid := rfl
@[simp] theorem nextWord_txp (w : Word) (s : State) : (nextWord w s).txp = s.txp := rfl
@[simp] theorem nextWord_encFlags (w : Word) (s : State) : (nextWord w s).encFlags = s.encFlags := rfl
@[simp] theorem nextWord_txValid (w : Word) (s : State) : (nextWord w s).txValid = s.txValid := rfl
@[simp] theorem nextWord_txlen (w : Word) (s : State) : (nextWord w s).txlen = s.txlen := rfl
@[simp] theorem nextWord_tx (w : Word) (s : State) : (nextWord w s).tx = s.tx := rfl
@[simp] theorem nextWord_evt (w : Word) (s : State) : (nextWord w s).evt = s.evt := rfl
@[simp] theorem nextWord_config (w : Word) (s : State) : (nextWord w s).config = s.config := rfl
@[simp] theorem nextWord_port (w : Word) (s : State) : (nextWord w s).port = w :: s.port := rfl

end Sys2Proof.Machine
end

