-- ==== Sys2Proof/Laws/Codec.lean ====
section
/-! SUPPORT. What the codec commands can do, said once: the next states of DECODE, SETINT and ENCODE. -/

namespace Sys2Proof.Machine

/-! ## DECODE -/

/-- remember_fan writes one fan memory and nothing else (42_record_codec.md R176). -/
theorem rememberFan_eq (f : Fan) (s : State) :
    rememberFan f s =
      { s with
        fanFo := if s.mode = some .fanOnly then some f else s.fanFo
        fanOther := if s.mode = some .fanOnly then s.fanOther else some f } := by
  unfold rememberFan
  split <;> simp_all

/-- The mode and fan registers after a record with a mapped fan code. -/
theorem decodeRegs_mapped {p : Record} {s : State} {f : Fan}
    (h : fanOfCode s.config.fanCode (p s.config.layout.fan) = some f) :
    decodeRegs p s =
      { s with
        mode := decodeMode s.config p s.mode
        fan := some f
        fanFo := if decodeMode s.config p s.mode = some .fanOnly then some f else s.fanFo
        fanOther := if decodeMode s.config p s.mode = some .fanOnly then s.fanOther else some f } := by
  simp [decodeRegs, decodeFan, h, rememberFan_eq]

/-- The mode and fan registers after a record with an unmapped fan code. -/
theorem decodeRegs_unmapped {p : Record} {s : State}
    (h : fanOfCode s.config.fanCode (p s.config.layout.fan) = none) :
    decodeRegs p s = { s with mode := decodeMode s.config p s.mode } := by
  simp [decodeRegs, decodeFan, h]

/-- decode_mode and decode_fan write MODE, FAN, FAN_FO and FAN_OTHER and nothing else. -/
theorem decodeRegs_eq (p : Record) (s : State) :
    ∃ f fo oth, decodeRegs p s =
      { s with mode := decodeMode s.config p s.mode, fan := f, fanFo := fo, fanOther := oth } := by
  cases h : fanOfCode s.config.fanCode (p s.config.layout.fan) with
  | some f => exact ⟨_, _, _, decodeRegs_mapped h⟩
  | none => exact ⟨_, _, _, decodeRegs_unmapped h⟩

/-- The state a successful DECODE leaves, in one record update (42_record_codec.md R172). -/
theorem decodeRecord_eq (p : Record) (s : State) :
    decodeRecord p s =
      { s with
        mode := decodeMode s.config p s.mode
        fan := (decodeRegs p s).fan
        fanFo := (decodeRegs p s).fanFo
        fanOther := (decodeRegs p s).fanOther
        status := some (statusOf p (decodeRegs p s))
        base := s.base.writeAll 0 p.bytes
        baseValid := true
        evt := 0x07#8 } := by
  obtain ⟨f, fo, oth, h⟩ := decodeRegs_eq p s
  simp [decodeRecord, h, emit, Event.code]

/-- BASE holds the record after a successful DECODE (20_memory.md R62). -/
theorem decodeRecord_base (p : Record) (s : State) : HoldsRecord (decodeRecord p s).base 0 p := by
  simpa only [decodeRecord_eq] using HoldsRecord.writeAll s.base 0 p

/-- Everything a successful DECODE does, with the new buffer and the new registers named: later proofs take the names and never
meet the 24 writes. -/
theorem decodeRecord_shape (p : Record) (s : State) :
    ∃ f fo oth r m, decodeRecord p s =
        { s with
          mode := decodeMode s.config p s.mode, fan := f, fanFo := fo, fanOther := oth, status := some r, base := m,
          baseValid := true, evt := 0x07#8 }
      ∧ r = statusOf p { s with mode := decodeMode s.config p s.mode, fan := f }
      ∧ HoldsRecord m 0 p ∧ (∀ j, 24 ≤ j → m.read j = s.base.read j) ∧ (BufferOk 24 s.base → BufferOk 24 m) := by
  obtain ⟨f, fo, oth, h⟩ := decodeRegs_eq p s
  refine ⟨f, fo, oth, statusOf p (decodeRegs p s), s.base.writeAll 0 p.bytes, ?_, ?_, HoldsRecord.writeAll _ _ _, ?_, ?_⟩
  · simp only [decodeRecord_eq, h]
  · simp only [h, statusOf]
  · intro j hj
    rw [Memory.read_writeAll, if_neg (by simp; omega)]
  · intro hb
    exact hb.writeAll (by simp)

/-- DECODE, if it goes on: it refuses (42_record_codec.md R171) or decodes a record of RX (R172). -/
theorem execDecode_next {s t : State} (h : execDecode s = .next t) :
    (s.rxValid = false ∧ t = { s with evt := 0x09#8 })
    ∨ (s.rxValid = true ∧ payloadLen s < recSize ∧ t = { s with evt := 0x08#8 })
    ∨ (∃ p, s.rxValid = true ∧ recSize ≤ payloadLen s ∧ HoldsRecord s.rx hdrSize p ∧ t = decodeRecord p s) := by
  unfold execDecode at h
  split at h
  · next hv => cases h; exact .inl ⟨hv, rfl⟩
  · next hv =>
    have hv : s.rxValid = true := by simpa using hv
    split at h
    · next hp => cases h; exact .inr (.inl ⟨hv, hp, rfl⟩)
    · next hp =>
      split at h
      · next p hr => cases h; exact .inr (.inr ⟨p, hv, by omega, Memory.readRecord_eq_some.1 hr, rfl⟩)
      · exact absurd h (by simp)

/-- P ≥ 24 says that RXN ≥ 34 (30_encoding.md R95). -/
theorem recSize_le_payloadLen {s : State} : recSize ≤ payloadLen s ↔ 34 ≤ s.rxn.toNat := by
  unfold payloadLen recSize
  split <;> omega

/-- DECODE of a delivered frame whose record is `p`. -/
theorem execDecode_of_record {s : State} {p : Record} (hv : s.rxValid = true) (hp : 34 ≤ s.rxn.toNat)
    (h : HoldsRecord s.rx hdrSize p) : execDecode s = .next (decodeRecord p s) := by
  have h1 : ¬ payloadLen s < recSize := by have := recSize_le_payloadLen.2 hp; omega
  simp [execDecode, hv, h1, Memory.readRecord_eq_some.2 h]

/-! ## The wire codes -/

/-- MODE_CODE⁻¹ undoes MODE_CODE (30_encoding.md R98). -/
theorem modeOfCode_modeCode {c : ModeCodes} (hc : c.Wf) {m : Mode} {x : Byte} (h : modeCode c m = some x) :
    modeOfCode c x = some m := by
  obtain ⟨a, b, d, e, f⟩ := c
  simp only [ModeCodes.Wf, List.nodup_cons, List.mem_cons, List.not_mem_nil, or_false, not_or] at hc
  obtain ⟨⟨h1, h2, h3, h4⟩, ⟨h5, h6, h7⟩, ⟨h8, h9⟩, h10, -⟩ := hc
  cases m <;> simp [modeCode] at h <;> subst h <;> simp [modeOfCode, *, Ne.symm, eq_comm]

/-- A byte with no mode is no mode's code. -/
theorem modeOfCode_eq_some {c : ModeCodes} {m : Mode} {x : Byte} (h : modeOfCode c x = some m) :
    modeCode c m = some x := by
  unfold modeOfCode at h
  repeat' split at h
  all_goals (first | (cases h; simp_all [modeCode]) | simp at h)

/-- FAN_CODE⁻¹ undoes FAN_CODE (30_encoding.md R98). -/
theorem fanOfCode_fanCode {c : FanCodes} (hc : c.Wf) (f : Fan) : fanOfCode c (fanCode c f) = some f := by
  obtain ⟨a, b, d, e⟩ := c
  simp only [FanCodes.Wf, List.nodup_cons, List.mem_cons, List.not_mem_nil, or_false, not_or] at hc
  obtain ⟨⟨h1, h2, h3⟩, ⟨h4, h5⟩, h6, -⟩ := hc
  cases f <;> simp [fanCode, fanOfCode] <;> simp_all [eq_comm]

/-- A byte's fan speed has that byte as its code. -/
theorem fanOfCode_eq_some {c : FanCodes} {f : Fan} {x : Byte} (h : fanOfCode c x = some f) : fanCode c f = x := by
  unfold fanOfCode at h
  repeat' split at h
  all_goals (first | (cases h; simp_all [fanCode]) | simp at h)

/-! ## SETINT and ENCODE -/

/-- SETINT always goes on (42_record_codec.md R185). -/
theorem execSetint_next {w : IntentWord} {s t : State} (h : execSetint w s = .next t) :
    (w.wf = false ∧ t = { s with evt := 0x14#8 })
    ∨ (w.wf = true ∧ s.baseValid = false ∧ t = { s with evt := 0x10#8 })
    ∨ (w.wf = true ∧ s.baseValid = true ∧ t = { s with intent := intentOf w, intValid := true, evt := 0x0F#8 }) := by
  unfold execSetint illegal at h
  split at h
  · next hw => cases h; exact .inl ⟨hw, rfl⟩
  · next hw =>
    have hw : w.wf = true := by simpa using hw
    split at h
    · next hb => cases h; exact .inr (.inl ⟨hw, hb, rfl⟩)
    · next hb => cases h; exact .inr (.inr ⟨hw, by simpa using hb, rfl⟩)

/-- The state a successful ENCODE leaves, in one record update (42_record_codec.md R190). -/
theorem encodeRecord_eq (p : Record) (s : State) :
    encodeRecord p s =
      { s with
        txp := s.txp.writeAll 0 (controlRecord p s).bytes
        txpValid := true
        encFlags := encFlagsOf (tempRejected s.config (activeIntent s).temp)
          (fanRejected (activeIntent s).fan (effectiveMode s))
        evt := 0x0A#8 } := by
  simp only [encodeRecord, emit, Event.code]

/-- ENCODE, if it goes on: it is rejected, or it encodes the record of BASE (42_record_codec.md R190). -/
theorem execEncode_next {s t : State} (h : execEncode s = .next t) :
    (s.baseValid = false ∧ t = { s with evt := 0x0B#8 })
    ∨ (∃ p, s.baseValid = true ∧ HoldsRecord s.base 0 p ∧ t = encodeRecord p s) := by
  unfold execEncode at h
  split at h
  · next hb => cases h; exact .inl ⟨hb, rfl⟩
  · next hb =>
    split at h
    · next p hr =>
      exact .inr ⟨p, by simpa using hb, Memory.readRecord_eq_some.1 hr, (Host.Outcome.next.inj h).symm⟩
    · exact absurd h (by simp)

/-- ENCODE with the baseline `p`. -/
theorem execEncode_of_record {s : State} {p : Record} (hb : s.baseValid = true) (h : HoldsRecord s.base 0 p) :
    execEncode s = .next (encodeRecord p s) := by
  simp [execEncode, hb, Memory.readRecord_eq_some.2 h]

/-- TXP holds the control record after a successful ENCODE. -/
theorem encodeRecord_txp (p : Record) (s : State) : HoldsRecord (encodeRecord p s).txp 0 (controlRecord p s) := by
  simpa only [encodeRecord_eq] using HoldsRecord.writeAll s.txp 0 (controlRecord p s)

/-- Everything a successful ENCODE does, with the new buffer named. -/
theorem encodeRecord_shape (p : Record) (s : State) :
    ∃ m, encodeRecord p s =
        { s with
          txp := m, txpValid := true, evt := 0x0A#8
          encFlags := encFlagsOf (tempRejected s.config (activeIntent s).temp)
            (fanRejected (activeIntent s).fan (effectiveMode s)) }
      ∧ HoldsRecord m 0 (controlRecord p s) ∧ (∀ j, 24 ≤ j → m.read j = s.txp.read j)
      ∧ (BufferOk 24 s.txp → BufferOk 24 m) := by
  refine ⟨s.txp.writeAll 0 (controlRecord p s).bytes, encodeRecord_eq p s, HoldsRecord.writeAll _ _ _, ?_, ?_⟩
  · intro j hj
    rw [Memory.read_writeAll, if_neg (by simp; omega)]
  · intro hb
    exact hb.writeAll (by simp)

/-- ENC_FLAGS: bit 0 is FAN_REJ, bit 1 TEMP_REJ (10_state.md R39). -/
theorem encFlagsOf_bits (tr fr : Bool) :
    (encFlagsOf tr fr).getLsbD 0 = fr ∧ (encFlagsOf tr fr).getLsbD 1 = tr := by
  cases tr <;> cases fr <;> decide

/-! ## The steps of ENCODE, bit by bit -/

/-- encode_mode changes bits of POWER and MODE only (42_record_codec.md R191). -/
theorem getBit_encodeMode_of_ne (c : Config) (p : Record) (m : Option Mode) {g : BitPos} (hp : g ≠ c.layout.power)
    (hm : g.off ≠ c.layout.mode) : getBit (encodeMode c p m) g = getBit p g := by
  unfold encodeMode
  split
  · rfl
  · split
    · simp [getBit_setBit, hp]
    · simp [getBit_setByte, getBit_setBit, hp, hm]

/-- encode_fan changes bits of FAN only (42_record_codec.md R192). -/
theorem getBit_encodeFan_of_ne (c : Config) (p : Record) (f : Option Fan) (eff : Option Mode) {g : BitPos}
    (hf : g.off ≠ c.layout.fan) : getBit (encodeFan c p f eff) g = getBit p g := by
  unfold encodeFan
  split
  · rfl
  · split
    · rfl
    · simp [getBit_setByte, hf]

/-- encode_swing changes bits of SWING_BOTH, SWING_V and SWING_H only (42_record_codec.md R193). -/
theorem getBit_encodeSwing_of_ne (c : Config) (p : Record) (w : Option Swing) {g : BitPos}
    (hb : g ∉ c.layout.swingBoth.bits) (hv : g ≠ c.layout.swingV) (hh : g ≠ c.layout.swingH) :
    getBit (encodeSwing c p w) g = getBit p g := by
  unfold encodeSwing
  split
  · rfl
  · simp [getBit_setBit, hv, hh, getBit_setBoth_of_not_mem _ _ hb]

/-- encode_temp changes bits of SETPOINT only (42_record_codec.md R194). -/
theorem getBit_encodeTemp_of_ne (c : Config) (p : Record) (t : Option Byte) {g : BitPos}
    (hs : g.off ≠ c.layout.setpoint) : getBit (encodeTemp c p t) g = getBit p g := by
  unfold encodeTemp
  split
  · rfl
  · split
    · simp [getBit_setByte, hs]
    · rfl

/-- The last step changes DISPLAY and BEEPER only (42_record_codec.md R195). -/
theorem getBit_encodeConfig_of_ne (c : Config) (p : Record) (d b : Bool) {g : BitPos} (hd : g ≠ c.layout.display)
    (hb : g ≠ c.layout.beeper) : getBit (encodeConfig c p d b) g = getBit p g := by
  simp [encodeConfig, getBit_setBit, hd, hb]

end Sys2Proof.Machine
end

