-- ==== Sys2Proof/Laws/Decode.lean ====
section
/-! SUPPORT. The fields of a command word: how they make up the word, and what a mask says of them. -/

namespace Sys2Proof

theorem getLsbD_field (w : Word) (lo n i : Nat) : (field w lo n).getLsbD i = (decide (i < n) && w.getLsbD (lo + i)) := by
  simp [field]

/-- Two neighbouring fields are one field. -/
theorem field_append_field (w : Word) (lo n m : Nat) : field w (lo + m) n ++ field w lo m = field w lo (n + m) := by
  apply BitVec.eq_of_getLsbD_eq
  intro i hi
  simp only [BitVec.getLsbD_append, getLsbD_field, hi, decide_true, Bool.true_and]
  by_cases h : i < m
  · simp [h]
  · have h2 : i - m < n := by omega
    simp [h, h2, show lo + m + (i - m) = lo + i by omega]

/-- The whole word is its field of 32 bits. -/
@[simp] theorem field_all (w : Word) : field w 0 32 = w := by
  apply BitVec.eq_of_getLsbD_eq
  intro i hi
  rw [getLsbD_field]
  simp [hi]

/-- One bit is a field of one bit. -/
theorem field_one (w : Word) (i : Nat) : field w i 1 = bit (flag w i) := by
  apply BitVec.eq_of_getLsbD_eq
  intro j hj
  obtain rfl : j = 0 := by omega
  rw [getLsbD_field]
  simp [bit, flag]

/-- A shift and a mask take out a field. -/
theorem shift_and_mask (w : Word) (lo n : Nat) :
    (w >>> lo) &&& BitVec.ofNat 32 (2 ^ n - 1) = (field w lo n).setWidth 32 := by
  apply BitVec.eq_of_getLsbD_eq
  intro i hi
  simp only [BitVec.getLsbD_and, BitVec.getLsbD_ushiftRight, BitVec.getLsbD_ofNat, Nat.testBit_two_pow_sub_one,
    BitVec.getLsbD_setWidth, getLsbD_field, hi, decide_true, Bool.true_and]
  rw [Bool.and_comm]

end Sys2Proof
end

