-- ==== Sys2Proof/Laws/Validator.lean ====
section
/-! SUPPORT. The laws of the checksum and of the CRC. -/

namespace Sys2Proof.Machine

@[simp] theorem cksum_nil : cksum [] = 0#8 := rfl

/-- The checksum of a frame grows by each further byte (41_checksum_crc.md R151). -/
@[simp] theorem cksum_snoc (bs : List Byte) (b : Byte) : cksum (bs ++ [b]) = cksum bs + b := by
  simp [cksum]

@[simp] theorem cksum_singleton (b : Byte) : cksum [b] = b := by simp [cksum]

theorem cksum_cons (b : Byte) (bs : List Byte) : cksum (b :: bs) = b + cksum bs := by
  have key : ∀ (bs : List Byte) (a : Byte), bs.foldl (fun a b => a + b) a = a + cksum bs := by
    intro bs
    induction bs with
    | nil => intro a; simp [cksum]
    | cons c bs ih =>
      intro a
      simp only [cksum, List.foldl_cons] at *
      rw [ih, ih (0#8 + c)]
      simp [BitVec.add_assoc]
  simpa [cksum] using key bs (0#8 + b)

theorem cksum_append (a b : List Byte) : cksum (a ++ b) = cksum a + cksum b := by
  induction a with
  | nil => simp
  | cons x a ih => simp [cksum_cons, ih, BitVec.add_assoc]

@[simp] theorem crc16_nil : crc16 [] = 0#16 := rfl

theorem crc16_snoc (bs : List Byte) (b : Byte) : crc16 (bs ++ [b]) = crcByte (crc16 bs) b := by
  simp [crc16]

/-- The two CRC bytes, high byte first, are the CRC. -/
@[simp] theorem crcHigh_append_crcLow (c : BitVec 16) : crcHigh c ++ crcLow c = c := by
  apply BitVec.eq_of_getLsbD_eq
  intro i hi
  simp only [BitVec.getLsbD_append, crcHigh, crcLow, BitVec.getLsbD_extractLsb']
  by_cases h : i < 8
  · simp [h]
  · have : i - 8 < 8 := by omega
    simp [h, this, show 8 + (i - 8) = i by omega]

/-- Two bytes are the CRC exactly when they are its high and its low byte. -/
theorem append_eq_crc (hi lo : Byte) (c : BitVec 16) : hi ++ lo = c ↔ hi = crcHigh c ∧ lo = crcLow c := by
  constructor
  · rintro rfl
    constructor <;> (apply BitVec.eq_of_getLsbD_eq; intro i hi')
    · rw [crcHigh, BitVec.getLsbD_extractLsb', BitVec.getLsbD_append]
      simp [hi']
    · rw [crcLow, BitVec.getLsbD_extractLsb', BitVec.getLsbD_append]
      simp [hi']
  · rintro ⟨rfl, rfl⟩
    simp

theorem lengthOk_iff {c : Config} {n : Byte} : lengthOk c n = true ↔ lenMin ≤ n.toNat ∧ n.toNat ≤ c.lenMax := by
  simp [lengthOk]

/-- An accepted length leaves room in RX for the checksum and the CRC (20_memory.md R60). -/
theorem lengthOk_room {c : Config} {n : Byte} (hc : c.Wf) (h : lengthOk c n = true) : n.toNat + 3 ≤ c.maxFrameSize := by
  have h2 := (lengthOk_iff.1 h).2
  have h37 := hc.1
  unfold Config.lenMax at h2
  omega

/-- The acceptance condition of 41_checksum_crc.md R155, part by part. -/
theorem accepts_iff {c : Config} {crc : Bool} {f : List Byte} {n : Byte} (hh : f.head? = some n) :
    accepts c crc f = true ↔
      lengthOk c n = true ∧ f.length = n.toNat + 1 + (if crc then 2 else 0)
      ∧ f[n.toNat]? = some (cksum (f.take n.toNat))
      ∧ (crc = true → f[n.toNat + 1]? = some (crcHigh (crc16 (f.take n.toNat)))
        ∧ f[n.toNat + 2]? = some (crcLow (crc16 (f.take n.toNat)))) := by
  cases f with
  | nil => simp at hh
  | cons a f =>
    simp only [List.head?_cons, Option.some.injEq] at hh
    subst hh
    cases crc <;> simp [accepts, and_assoc]

end Sys2Proof.Machine
end

