-- ==== Sys2Proof/Laws/Framer.lean ====
section
/-! SUPPORT. What BUILD can do, said once, and the length of its frame. -/

namespace Sys2Proof.Machine

/-- The state a successful BUILD of the frame `f` leaves (43_framer_control.md R210). -/
theorem putTx_eq (f : List Byte) (s : State) :
    putTx f s = { s with tx := s.tx.writeAll 0 f, txlen := f.length, txValid := true, evt := 0x0C#8 } := rfl

/-- Everything a successful BUILD does, with the new buffer named. -/
theorem putTx_shape (f : List Byte) (s : State) :
    ∃ m, putTx f s = { s with tx := m, txlen := f.length, txValid := true, evt := 0x0C#8 }
      ∧ m.readAll 0 f.length = some f ∧ (∀ j, f.length ≤ j → m.read j = s.tx.read j)
      ∧ (f.length ≤ s.config.bufSize → BufferOk s.config.bufSize s.tx → BufferOk s.config.bufSize m) := by
  refine ⟨s.tx.writeAll 0 f, rfl, Memory.readAll_writeAll _ _ _, ?_, ?_⟩
  · intro j hj
    rw [Memory.read_writeAll, if_neg (by omega)]
  · intro hl hb
    exact hb.writeAll (by omega)

/-- A built frame has N + 3 bytes, and two more with the CRC (43_framer_control.md R210). -/
theorem buildFrame_length (crc pl : Bool) (ty a0 a1 : Byte) (payload : List Byte) :
    (buildFrame crc pl ty a0 a1 payload).length = payload.length + 13 + (if crc then 2 else 0) := by
  cases crc <;> simp [buildFrame, frameOf, buildBody, prefixBytes, crcBytes]

/-- BUILD, if it goes on: it refuses, or it puts a frame of at most MAX_FRAME_SIZE + 2 bytes into TX
(43_framer_control.md R210). -/
theorem execBuild_next {pl : Bool} {ty a0 a1 : Byte} {s t : State} (h : execBuild pl ty a0 a1 s = .next t) :
    (pl = true ∧ s.txpValid = false ∧ t = { s with evt := 0x0D#8 })
    ∨ (s.config.maxFrameSize < builtLen pl + 3 ∧ t = { s with evt := 0x0E#8 })
    ∨ (∃ payload, (pl = false → payload = []) ∧ (pl = true → ∃ p, HoldsRecord s.txp 0 p ∧ payload = p.bytes)
        ∧ (buildFrame s.crcEn pl ty a0 a1 payload).length ≤ s.config.bufSize
        ∧ t = putTx (buildFrame s.crcEn pl ty a0 a1 payload) s) := by
  have key : ∀ payload : List Byte, payload.length + 10 = builtLen pl →
      buildWith pl ty a0 a1 payload s = .next t →
      (s.config.maxFrameSize < builtLen pl + 3 ∧ t = { s with evt := 0x0E#8 })
      ∨ ((buildFrame s.crcEn pl ty a0 a1 payload).length ≤ s.config.bufSize
        ∧ t = putTx (buildFrame s.crcEn pl ty a0 a1 payload) s) := by
    intro payload hlen hb
    unfold buildWith at hb
    split at hb
    · next hs => cases hb; exact .inl ⟨hs, rfl⟩
    · next hs =>
      cases hb
      refine .inr ⟨?_, rfl⟩
      rw [buildFrame_length]
      unfold Config.bufSize
      split <;> omega
  unfold execBuild at h
  cases pl with
  | false =>
    simp only [Bool.false_eq_true, if_false] at h
    rcases key [] (by decide) h with h | ⟨h1, h2⟩
    · exact .inr (.inl h)
    · exact .inr (.inr ⟨[], by simp, by simp, h1, h2⟩)
  | true =>
    simp only [if_true] at h
    split at h
    · next hv => cases h; exact .inl ⟨rfl, hv, rfl⟩
    · split at h
      · next p hr =>
        rcases key p.bytes (by simp [builtLen, hdrSize, recSize]) h with h | ⟨h1, h2⟩
        · exact .inr (.inl h)
        · exact .inr (.inr ⟨p.bytes, by simp, fun _ => ⟨p, Memory.readRecord_eq_some.1 hr, rfl⟩, h1, h2⟩)
      · exact absurd h (by simp)

end Sys2Proof.Machine
end

