-- ==== Sys2Proof/Laws/Invariant.lean ====
section
/-! SUPPORT. A check of `FscInv` that can be evaluated, for concrete states: the tests show with it that their states meet the
hypotheses of the statements. -/

namespace Sys2Proof.Machine

/-- The check of BODY(i): its range (10_state.md R47 (a)) and the bytes so far. -/
def checkBody (i : Nat) (s : State) : Bool :=
  decide (1 ≤ i ∧ i ≤ s.rxn.toNat ∧ lenMin ≤ s.rxn.toNat ∧ s.rxn.toNat ≤ s.config.lenMax)
    && (match s.rx.readAll 0 i with
      | some bs => bs.head? == some s.rxn && s.sum == cksum bs
      | none => false)

/-- The check of CRCB(k). -/
def checkCrcb (k : Fin 2) (s : State) : Bool :=
  s.crcL && lengthOk s.config s.rxn
    && (match s.rx.readAll 0 (s.rxn.toNat + 1 + k.val) with
      | some bs => bs.head? == some s.rxn && bs[s.rxn.toNat]? == some (cksum (bs.take s.rxn.toNat))
      | none => false)

/-- The check of RSTATE and what it says about RX and SUM. -/
def checkReader (s : State) : Bool :=
  match s.rstate with
  | .hunt m => m != 0 || s.idle == 0
  | .body i => !s.rxValid && checkBody i s
  | .crcb k => !s.rxValid && checkCrcb k s

/-- The check of the delivered frame. -/
def checkFrame (s : State) : Bool :=
  (!s.rxCrc || s.rxValid) && (!s.rxValid || (s.rx.read 0 == some s.rxn
    && (match s.rxFrame with
      | some f => accepts s.config s.rxCrc f
      | none => false)))

/-- The check of the codec state. -/
def checkCodec (s : State) : Bool :=
  (s.status.isSome == s.baseValid) && (!(s.intValid || s.txpValid) || s.baseValid)
    && (!s.baseValid || (s.base.readRecord 0).isSome) && (!s.txpValid || (s.txp.readRecord 0).isSome)
    && (match s.status with
      | some r => decide (r.mode = s.mode ∧ r.fan = s.fan ∧ s.config.bias ≤ r.target ∧ r.target ≤ 255 + s.config.bias)
      | none => true)

/-- The check of a buffer. -/
def checkBuffer (size : Nat) (m : Memory) : Bool := m.wf && m.within size

/-- The check of the whole invariant. -/
def checkInv (s : State) : Bool :=
  decide s.config.Wf
    && (checkBuffer s.config.bufSize s.rx && checkBuffer 24 s.base && checkBuffer 24 s.txp
      && checkBuffer s.config.bufSize s.tx)
    && checkReader s && checkFrame s && checkCodec s
    && (!s.txValid || s.txFrame.isSome)
    && decide (s.txlen ≤ s.config.bufSize ∧ s.idle < s.config.intraTimeout ∧ s.cfg.toNat < 8 ∧ s.evt.toNat ≤ 0x14)

theorem bufferOk_of_check {size : Nat} {m : Memory} (h : checkBuffer size m = true) : BufferOk size m := by
  simpa [checkBuffer, BufferOk] using h

theorem body_of_check {i : Nat} {s : State} (h : checkBody i s = true) :
    (1 ≤ i ∧ i ≤ s.rxn.toNat ∧ lenMin ≤ s.rxn.toNat ∧ s.rxn.toNat ≤ s.config.lenMax) ∧ BodyOk i s := by
  simp only [checkBody, Bool.and_eq_true, decide_eq_true_eq] at h
  refine ⟨h.1, ?_⟩
  have h2 := h.2
  split at h2
  · next bs hb => exact ⟨bs, hb, by simpa using h2⟩
  · exact absurd h2 (by simp)

theorem crcb_of_check {k : Fin 2} {s : State} (h : checkCrcb k s = true) :
    s.crcL = true ∧ lengthOk s.config s.rxn = true ∧ CrcbOk k s := by
  simp only [checkCrcb, Bool.and_eq_true] at h
  refine ⟨h.1.1, h.1.2, ?_⟩
  have h2 := h.2
  split at h2
  · next bs hb => exact ⟨bs, hb, by simpa using h2⟩
  · exact absurd h2 (by simp)

theorem hasRecord_of_isSome {m : Memory} (h : (m.readRecord 0).isSome = true) : HasRecord m 0 := by
  obtain ⟨p, hp⟩ := Option.isSome_iff_exists.1 h
  exact ⟨p, Memory.readRecord_eq_some.1 hp⟩

/-- A state that passes the check meets the invariant. -/
theorem inv_of_check {s : State} (h : checkInv s = true) : FscInv s := by
  simp only [checkInv, Bool.and_eq_true, decide_eq_true_eq] at h
  obtain ⟨⟨⟨⟨⟨⟨hc, ⟨⟨b1, b2⟩, b3⟩, b4⟩, hr⟩, hf⟩, hk⟩, ht⟩, hn⟩ := h
  simp only [checkFrame, Bool.and_eq_true, Bool.or_eq_true, Bool.not_eq_true', beq_iff_eq] at hf
  simp only [checkCodec, Bool.and_eq_true, Bool.or_eq_true, Bool.not_eq_true', beq_iff_eq] at hk
  obtain ⟨⟨⟨⟨k1, k2⟩, k3⟩, k4⟩, k5⟩ := hk
  have hunt : s.rxValid = true → ∃ m, s.rstate = .hunt m := by
    intro hv
    unfold checkReader at hr
    split at hr
    · exact ⟨_, ‹_›⟩
    · simp [hv] at hr
    · simp [hv] at hr
  have body : ∀ i, s.rstate = .body i → checkBody i s = true := by
    intro i hi
    simp only [checkReader, hi, Bool.and_eq_true] at hr
    exact hr.2
  have crcb : ∀ k, s.rstate = .crcb k → checkCrcb k s = true := by
    intro k hi
    simp only [checkReader, hi, Bool.and_eq_true] at hr
    exact hr.2
  refine ⟨hc, ⟨bufferOk_of_check b1, bufferOk_of_check b2, bufferOk_of_check b3, bufferOk_of_check b4⟩,
    ⟨?_, ?_, ?_, ?_, ?_, ?_, ?_⟩, ?_, ?_, ?_, ?_, ?_, ?_, ?_, hn.1, ?_, hn.2.1, hn.2.2.1, hn.2.2.2⟩
  · exact fun i hi => (body_of_check (body i hi)).1
  · exact fun k hi => (crcb_of_check (crcb k hi)).1
  · intro hv
    refine ⟨hunt hv, ?_⟩
    rcases hf.2 with h | h
    · simp [hv] at h
    · exact h.1
  · intro hv
    simpa [hv] using hf.1
  · intro hv
    rcases k2 with h | h
    · simp at h; simp [h] at hv
    · exact h
  · rw [← k1]; cases s.status <;> simp
  · intro hh
    simpa [checkReader, hh] using hr
  · exact fun k hi => (crcb_of_check (crcb k hi)).2.1
  · exact fun i hi => (body_of_check (body i hi)).2
  · exact fun k hi => (crcb_of_check (crcb k hi)).2.2
  · intro hv
    rcases hf.2 with h | h
    · simp [hv] at h
    · have h2 := h.2
      split at h2
      · next f e => exact ⟨f, e, h2⟩
      · exact absurd h2 (by simp)
  · intro hb
    rcases k3 with h | h
    · simp [hb] at h
    · exact hasRecord_of_isSome h
  · intro hb
    rcases k4 with h | h
    · simp [hb] at h
    · exact hasRecord_of_isSome h
  · intro hv
    simp only [hv, Bool.not_true, Bool.false_or] at ht
    exact Option.isSome_iff_exists.1 ht
  · intro r he
    simpa [he] using k5

end Sys2Proof.Machine
end

