-- ==== Sys2Proof/Laws/Layout.lean ====
section
/-! SUPPORT. What a well-formed layout gives, field by field: no two fields share a bit (30_encoding.md R96). -/

namespace Sys2Proof

open Machine

/-- The five fields that are single bits. -/
def Layout.bitFields (l : Layout) : List BitPos := [l.power, l.swingV, l.swingH, l.display, l.beeper]

/-- No two fields of the layout share a bit. -/
structure Layout.Separate (l : Layout) : Prop where
  bytes : l.roomTemp ≠ l.mode ∧ l.roomTemp ≠ l.fan ∧ l.roomTemp ≠ l.setpoint ∧ l.mode ≠ l.fan ∧ l.mode ≠ l.setpoint
    ∧ l.fan ≠ l.setpoint
  both : ∀ f ∈ l.swingBoth.bits, f.off ≠ l.roomTemp ∧ f.off ≠ l.mode ∧ f.off ≠ l.fan ∧ f.off ≠ l.setpoint
  bits : ∀ f ∈ l.bitFields, f.off ≠ l.roomTemp ∧ f.off ≠ l.mode ∧ f.off ≠ l.fan ∧ f.off ≠ l.setpoint
    ∧ f ∉ l.swingBoth.bits
  bitsNodup : l.bitFields.Nodup

theorem Layout.Wf.separate {l : Layout} (h : l.Wf) : l.Separate := by
  unfold Layout.Wf Layout.bits at h
  rw [List.nodup_append, List.nodup_append, List.nodup_append, List.nodup_append, List.nodup_append] at h
  obtain ⟨⟨⟨⟨⟨_, _, room⟩, _, fan⟩, _, setpoint⟩, _, both⟩, nodup, bits⟩ := h
  have key : ∀ o, (⟨o, 0⟩ : BitPos) ∈ byteBits o := fun o => mem_byteBits.2 rfl
  refine ⟨⟨?_, ?_, ?_, ?_, ?_, ?_⟩, fun f hf => ?_, fun f hf => ?_, nodup⟩
  · exact fun e => room ⟨l.roomTemp, 0⟩ (key _) ⟨l.mode, 0⟩ (key _) (by rw [e])
  · exact fun e => fan ⟨l.roomTemp, 0⟩ (by simp [key]) ⟨l.fan, 0⟩ (key _) (by rw [e])
  · exact fun e => setpoint ⟨l.roomTemp, 0⟩ (by simp [key]) ⟨l.setpoint, 0⟩ (key _) (by rw [e])
  · exact fun e => fan ⟨l.mode, 0⟩ (by simp [key]) ⟨l.fan, 0⟩ (key _) (by rw [e])
  · exact fun e => setpoint ⟨l.mode, 0⟩ (by simp [key]) ⟨l.setpoint, 0⟩ (key _) (by rw [e])
  · exact fun e => setpoint ⟨l.fan, 0⟩ (by simp [key]) ⟨l.setpoint, 0⟩ (key _) (by rw [e])
  · refine ⟨?_, ?_, ?_, ?_⟩ <;> exact fun e => both f (by simp [mem_byteBits, e]) f hf rfl
  · refine ⟨?_, ?_, ?_, ?_, ?_⟩ <;> exact fun e => bits f (by simp [mem_byteBits, e]) f hf rfl

end Sys2Proof
end

