-- ==== Sys2Proof/Laws/PerInstr.lean ====
section
/-! SUPPORT. Statements about every command as syntax, one lemma for each constructor. -/

namespace Sys2Proof.Laws

/-- OP of a command (30_encoding.md R82), its place in the opcode map. -/
def opcode : Instr → BitVec 4
  | .nop => 0x0#4
  | .feed _ => 0x1#4
  | .tick => 0x2#4
  | .hunt => 0x3#4
  | .setcfg _ _ _ => 0x4#4
  | .setint _ => 0x5#4
  | .clrint => 0x6#4
  | .decode => 0x7#4
  | .encode => 0x8#4
  | .build _ _ _ _ => 0x9#4
  | .reset => 0xA#4
  | .reservedB _ => 0xB#4
  | .reservedC _ => 0xC#4
  | .reservedD _ => 0xD#4
  | .reservedE _ => 0xE#4
  | .reservedF _ => 0xF#4

/-- Bits 31:28 of the word of a command are its opcode (30_encoding.md R81, R82). -/
def EncodeOpcode.Statement (i : Instr) : Prop := (encode i).extractLsb' 28 4 = opcode i

namespace EncodeOpcode

/-- The four bits on top of a word, one by one. -/
theorem top_bits {w : Word} {op : BitVec 4} (h : ∀ i, i < 4 → w.getLsbD (28 + i) = op.getLsbD i) :
    w.extractLsb' 28 4 = op :=
  BitVec.eq_of_getLsbD_eq fun i hi => by simpa [hi] using h i hi

theorem nop : Statement .nop := rfl

theorem feed (b : Byte) : Statement (.feed b) :=
  top_bits fun i hi => by interval_cases i <;> (simp only [Sys2Proof.encode, BitVec.getLsbD_append]; simp [opcode])

theorem tick : Statement .tick := rfl

theorem hunt : Statement .hunt := rfl

theorem setcfg (bs don ce : Bool) : Statement (.setcfg bs don ce) :=
  top_bits fun i hi => by interval_cases i <;> (simp only [Sys2Proof.encode, BitVec.getLsbD_append]; simp [opcode])

theorem setint (w : IntentWord) : Statement (.setint w) :=
  top_bits fun i hi => by interval_cases i <;> (simp only [Sys2Proof.encode, BitVec.getLsbD_append]; simp [opcode])

theorem clrint : Statement .clrint := rfl

theorem decode : Statement .decode := rfl

theorem encode : Statement .encode := rfl

theorem build (pl : Bool) (ty a0 a1 : Byte) : Statement (.build pl ty a0 a1) :=
  top_bits fun i hi => by interval_cases i <;> (simp only [Sys2Proof.encode, BitVec.getLsbD_append]; simp [opcode])

theorem reset : Statement .reset := rfl

theorem reservedB (x : BitVec 28) : Statement (.reservedB x) :=
  top_bits fun i hi => by interval_cases i <;> (simp only [Sys2Proof.encode, BitVec.getLsbD_append]; simp [opcode])

theorem reservedC (x : BitVec 28) : Statement (.reservedC x) :=
  top_bits fun i hi => by interval_cases i <;> (simp only [Sys2Proof.encode, BitVec.getLsbD_append]; simp [opcode])

theorem reservedD (x : BitVec 28) : Statement (.reservedD x) :=
  top_bits fun i hi => by interval_cases i <;> (simp only [Sys2Proof.encode, BitVec.getLsbD_append]; simp [opcode])

theorem reservedE (x : BitVec 28) : Statement (.reservedE x) :=
  top_bits fun i hi => by interval_cases i <;> (simp only [Sys2Proof.encode, BitVec.getLsbD_append]; simp [opcode])

theorem reservedF (x : BitVec 28) : Statement (.reservedF x) :=
  top_bits fun i hi => by interval_cases i <;> (simp only [Sys2Proof.encode, BitVec.getLsbD_append]; simp [opcode])

end EncodeOpcode

end Sys2Proof.Laws
end

