-- ==== Sys2Proof/Laws/Reader.lean ====
section
/-! SUPPORT. What the commands of the frame reader can do, said once: if FEED, TICK or HUNT answers a next state, it is one of
these. Later proofs take their cases from here and never unfold the meanings. -/

namespace Sys2Proof.Machine

/-- A store into RX that goes on: the index is a cell, and the rest ran on the stored state. -/
theorem storeRx_next {i : Nat} {b : Byte} {s t : State} {rest : State → Host.Outcome State Fault Refusal}
    (h : storeRx i b s rest = .next t) : i < s.config.bufSize ∧ rest { s with rx := s.rx.write i b } = .next t := by
  unfold storeRx at h
  split at h
  · exact ⟨‹_›, h⟩
  · exact absurd h (by simp)

/-- A store into RX at a cell runs the rest. -/
theorem storeRx_of_lt {i : Nat} {s : State} (b : Byte) (rest : State → Host.Outcome State Fault Refusal)
    (h : i < s.config.bufSize) : storeRx i b s rest = rest { s with rx := s.rx.write i b } := by
  simp [storeRx, h]

/-- The ways FEED can go on, one for each outcome of 40_frame_reader.md R122 to R128. -/
inductive FeedStep (b : Byte) (s : State) : State → Prop where
  | marker (m : Fin 3) (hr : s.rstate = .hunt m) (hb : b = marker) :
      FeedStep b s { s with rstate := .hunt (nextMark m), idle := 0, evt := 0x01#8 }
  | garbage (m : Fin 3) (hr : s.rstate = .hunt m) (hb : b ≠ marker) (hm : m.val < 2) :
      FeedStep b s { s with rstate := .hunt 0, idle := 0, evt := 0x01#8 }
  | length (m : Fin 3) (hr : s.rstate = .hunt m) (hb : b ≠ marker) (hm : ¬ m.val < 2) (hl : lengthOk s.config b = true)
      (hi : 0 < s.config.bufSize) :
      FeedStep b s { s with
        rxn := b, rx := s.rx.write 0 b, sum := b, crcL := s.crcEn, rxValid := false, rxCrc := false,
        rstate := .body 1, idle := 0, evt := 0x01#8 }
  | badLength (m : Fin 3) (hr : s.rstate = .hunt m) (hb : b ≠ marker) (hm : ¬ m.val < 2)
      (hl : lengthOk s.config b = false) :
      FeedStep b s { s with rstate := .hunt 0, idle := 0, evt := 0x03#8 }
  | body (i : Nat) (hr : s.rstate = .body i) (hi : i < s.rxn.toNat) (hc : i < s.config.bufSize) :
      FeedStep b s { s with
        rx := s.rx.write i b, sum := s.sum + b, rstate := .body (i + 1), idle := 0, evt := 0x01#8 }
  | badChecksum (hr : s.rstate = .body s.rxn.toNat) (hc : s.rxn.toNat < s.config.bufSize) (hb : b ≠ s.sum) :
      FeedStep b s { s with rx := s.rx.write s.rxn.toNat b, rstate := .hunt 0, idle := 0, evt := 0x04#8 }
  | checksumThenCrc (hr : s.rstate = .body s.rxn.toNat) (hc : s.rxn.toNat < s.config.bufSize) (hb : b = s.sum)
      (hcrc : s.crcL = true) :
      FeedStep b s { s with rx := s.rx.write s.rxn.toNat b, rstate := .crcb 0, idle := 0, evt := 0x01#8 }
  | checksum (hr : s.rstate = .body s.rxn.toNat) (hc : s.rxn.toNat < s.config.bufSize) (hb : b = s.sum)
      (hcrc : s.crcL = false) :
      FeedStep b s { s with
        rx := s.rx.write s.rxn.toNat b, rxValid := true, rxCrc := false, rstate := .hunt 0, idle := 0, evt := 0x02#8 }
  | crcHigh (hr : s.rstate = .crcb 0) (hc : s.rxn.toNat + 1 < s.config.bufSize) :
      FeedStep b s { s with rx := s.rx.write (s.rxn.toNat + 1) b, rstate := .crcb 1, idle := 0, evt := 0x01#8 }
  | crcMatch (hi : Byte) (frame : List Byte) (hr : s.rstate = .crcb 1) (hc : s.rxn.toNat + 2 < s.config.bufSize)
      (hh : s.rx.read (s.rxn.toNat + 1) = some hi) (hf : s.rx.readAll 0 s.rxn.toNat = some frame)
      (hcrc : hi ++ b = crc16 frame) :
      FeedStep b s { s with
        rx := s.rx.write (s.rxn.toNat + 2) b, rxValid := true, rxCrc := true, rstate := .hunt 0, idle := 0,
        evt := 0x02#8 }
  | crcMismatch (hi : Byte) (frame : List Byte) (hr : s.rstate = .crcb 1) (hc : s.rxn.toNat + 2 < s.config.bufSize)
      (hh : s.rx.read (s.rxn.toNat + 1) = some hi) (hf : s.rx.readAll 0 s.rxn.toNat = some frame)
      (hcrc : hi ++ b ≠ crc16 frame) :
      FeedStep b s { s with rx := s.rx.write (s.rxn.toNat + 2) b, rstate := .hunt 0, idle := 0, evt := 0x05#8 }

/-- The byte written last does not change the cells before it. -/
theorem readAll_write_after (m : Memory) {i n : Nat} (b : Byte) (h : n ≤ i) :
    (m.write i b).readAll 0 n = m.readAll 0 n :=
  Memory.readAll_congr fun j hj => Memory.read_write_of_ne m b (by omega)

/-- FEED, if it goes on, goes on in one of the ways of `FeedStep`. -/
theorem execFeed_next {b : Byte} {s t : State} (h : execFeed b s = .next t) : FeedStep b s t := by
  unfold execFeed feedCase at h
  cases hr : s.rstate with
  | hunt m =>
    simp only [hr] at h
    split at h
    · next hb => cases h; exact .marker m hr hb
    · next hb =>
      split at h
      · next hm => cases h; exact .garbage m hr hb hm
      · next hm =>
        unfold feedLength at h
        split at h
        · next hl =>
          obtain ⟨hi, h⟩ := storeRx_next h
          cases h
          exact .length m hr hb hm hl hi
        · next hl => cases h; exact .badLength m hr hb hm (by simpa using hl)
  | body i =>
    simp only [hr] at h
    split at h
    · next hi =>
      obtain ⟨hc, h⟩ := storeRx_next h
      cases h
      exact .body i hr hi hc
    · split at h
      · next hi =>
        subst hi
        obtain ⟨hc, h⟩ := storeRx_next h
        simp only at h
        split at h
        · next hb => cases h; exact .badChecksum hr hc hb
        · next hb =>
          split at h
          · next hcrc => cases h; exact .checksumThenCrc hr hc (by simpa using hb) hcrc
          · next hcrc => cases h; exact .checksum hr hc (by simpa using hb) (by simpa using hcrc)
      · exact absurd h (by simp)
  | crcb k =>
    simp only [hr] at h
    split at h
    · next hk =>
      obtain rfl : k = 0 := Fin.ext hk
      obtain ⟨hc, h⟩ := storeRx_next h
      cases h
      exact .crcHigh hr hc
    · next hk =>
      obtain rfl : k = 1 := by omega
      obtain ⟨hc, h⟩ := storeRx_next h
      simp only at h
      split at h
      · next hi frame hh hf =>
        rw [Memory.read_write_of_ne _ _ (by omega)] at hh
        rw [readAll_write_after _ _ (by omega)] at hf
        split at h
        · next hcrc => cases h; exact .crcMatch hi frame hr hc hh hf hcrc
        · next hcrc => cases h; exact .crcMismatch hi frame hr hc hh hf hcrc
      · exact absurd h (by simp)

/-- TICK always goes on: it does nothing, counts, or times out (40_frame_reader.md R131). -/
theorem execTick_next {s t : State} (h : execTick s = .next t) :
    (s.rstate = .hunt 0 ∧ t = { s with evt := 0x00#8 })
    ∨ (s.rstate ≠ .hunt 0 ∧ s.config.intraTimeout ≤ s.idle + 1
        ∧ t = { s with rstate := .hunt 0, idle := 0, evt := 0x06#8 })
    ∨ (s.rstate ≠ .hunt 0 ∧ s.idle + 1 < s.config.intraTimeout ∧ t = { s with idle := s.idle + 1, evt := 0x00#8 }) := by
  unfold execTick tickPartial at h
  split at h
  · next hr => cases h; exact .inl ⟨hr, rfl⟩
  · next hr =>
    split at h
    · next hi => cases h; exact .inr (.inl ⟨hr, hi, rfl⟩)
    · next hi => cases h; exact .inr (.inr ⟨hr, by omega, rfl⟩)

end Sys2Proof.Machine
end

