-- ==== Sys2Proof/Laws/Runs.lean ====
section
/-! SUPPORT. Runs of several commands, one command at a time and one part after another. -/

namespace Sys2Proof.Machine

/-- The first command of a run. -/
theorem runs_cons {i : Instr} {is : List Instr} {s t : State} (h : exec i s = .next t) :
    runs (i :: is) s = (runs is t).map fun r => (t.evt :: r.1, r.2) := by
  simp only [runs, h]
  cases runs is t <;> rfl

/-- A run in two parts. -/
theorem runs_append (a b : List Instr) {s t : State} {es : List Byte} (h : runs a s = some (es, t)) :
    runs (a ++ b) s = (runs b t).map fun r => (es ++ r.1, r.2) := by
  induction a generalizing s es with
  | nil =>
    simp only [runs, Option.some.injEq, Prod.mk.injEq] at h
    obtain ⟨rfl, rfl⟩ := h
    simp
  | cons i a ih =>
    cases he : exec i s with
    | next u =>
      rw [runs_cons he] at h
      rw [List.cons_append, runs_cons he]
      simp only [Option.map_eq_some_iff, Prod.exists] at h
      obtain ⟨es', t', h1, h2⟩ := h
      simp only [Prod.mk.injEq] at h2
      obtain ⟨rfl, rfl⟩ := h2
      rw [ih h1, Option.map_map]
      rfl
    | fault r => simp [runs, he] at h
    | refused r => simp [runs, he] at h

end Sys2Proof.Machine
end

