-- ==== Sys2Proof/Tests/Slice0.lean ====
section
/-! SUPPORT. The tests of this model. The expected results are those of 95_test_vectors.md, whose vector is named at each test;
the witnesses show that the hypotheses of the statements can be met. -/

namespace Sys2Proof.Tests

open Sys2Proof.Machine

/-! ## WellFormed: one ill-formed operand for each check (30_encoding.md R89 (c), (d)) -/

/-- A SETINT with no field present. -/
def noFields : IntentWord := ⟨false, 0#3, false, 0#8, false, 0#2, false, 0#2, false, 0#3⟩

theorem test_wf_no_fields : WellFormed (.setint noFields) = true := by decide
theorem test_wf_mode_6 : WellFormed (.setint { noFields with mp := true, mv := 6#3 }) = false := by decide
theorem test_wf_mode_7 : WellFormed (.setint { noFields with mp := true, mv := 7#3 }) = false := by decide
theorem test_wf_absent_mode : WellFormed (.setint { noFields with mv := 1#3 }) = false := by decide
theorem test_wf_absent_fan : WellFormed (.setint { noFields with fv := 1#2 }) = false := by decide
theorem test_wf_absent_swing : WellFormed (.setint { noFields with sv := 1#2 }) = false := by decide
theorem test_wf_absent_temp : WellFormed (.setint { noFields with tv := 1#8 }) = false := by decide
theorem test_wf_absent_preset : WellFormed (.setint { noFields with pv := 1#3 }) = false := by decide

/-! ## Decoding: words written out from 30_encoding.md R82 to R87 (V-CW-1), and ILLEGAL words (V-CW-2) -/

theorem test_decode_nop : decode 0b0000_0000000000000000000000000000#32 = .ok .nop := by decide
theorem test_decode_feed : decode 0b0001_00000000000000000000_11111111#32 = .ok (.feed 0xFF#8) := by decide
theorem test_decode_tick : decode 0b0010_0000000000000000000000000000#32 = .ok .tick := by decide
theorem test_decode_hunt : decode 0b0011_0000000000000000000000000000#32 = .ok .hunt := by decide
theorem test_decode_setcfg :
    decode 0b0100_0000000000000000000000000_0_1_1#32 = .ok (.setcfg false true true) := by decide
theorem test_decode_setint :
    decode 0b0101_000_0_000_1_00010110_0_0_00_0_0_00_1_010#32 =
      .ok (.setint { noFields with tp := true, tv := 22#8, mp := true, mv := 2#3 }) := by decide
theorem test_decode_setint_fan_swing_preset :
    decode 0b0101_000_1_101_0_00000000_0_1_11_0_1_10_0_000#32 =
      .ok (.setint { noFields with pp := true, pv := 5#3, sp := true, sv := 3#2, fp := true, fv := 2#2 }) := by decide
theorem test_decode_clrint : decode 0b0110_0000000000000000000000000000#32 = .ok .clrint := by decide
theorem test_decode_decode : decode 0b0111_0000000000000000000000000000#32 = .ok .decode := by decide
theorem test_decode_encode : decode 0b1000_0000000000000000000000000000#32 = .ok .encode := by decide
theorem test_decode_build :
    decode 0b1001_000_1_00000001_01100000_00000010#32 = .ok (.build true 0x01#8 0x60#8 0x02#8) := by decide
theorem test_decode_reset : decode 0b1010_0000000000000000000000000000#32 = .ok .reset := by decide
theorem test_decode_reserved :
    decode 0xB0000000#32 = .ok (.reservedB 0#28) ∧ decode 0xC0000000#32 = .ok (.reservedC 0#28)
    ∧ decode 0xD0000000#32 = .ok (.reservedD 0#28) ∧ decode 0xE0000000#32 = .ok (.reservedE 0#28)
    ∧ decode 0xFFFFFFFF#32 = .ok (.reservedF 0xFFFFFFF#28) := by decide
theorem test_decode_reserved_bits :
    [0x00000001#32, 0x20000001#32, 0x30000001#32, 0x70000001#32, 0x80000100#32, 0x60000010#32, 0xA0000001#32, 0x10000100#32,
      0x1FFFFFFF#32, 0x40000008#32, 0x4FFFFFF8#32, 0x52000000#32, 0x50000800#32, 0x50000080#32, 0x92000000#32,
      0x94000000#32, 0x02000000#32].all (fun w => decide (decode w = .error .reservedBit)) = true := by decide
theorem test_decode_mode_value :
    decode 0x5000000E#32 = .error .modeValue ∧ decode 0x5000000F#32 = .error .modeValue := by decide
theorem test_decode_absent_value :
    [0x50000001#32, 0x50000010#32, 0x50000100#32, 0x50001000#32, 0x50200000#32].all
      (fun w => decide (decode w = .error .absentValue)) = true := by decide

/-! ## The states of the tests (95_test_vectors.md section 2) -/

/-- The state a command leaves, or nothing when it stops the model. -/
def after (o : Host.Outcome State Fault Refusal) : Option State :=
  match o with
  | .next s => some s
  | .fault _ => none
  | .refused _ => none

/-- The frame bytes of POLLC; POLL is the first 11 of them. -/
def pollc : List Byte :=
  [0x0A#8, 0x00#8, 0x00#8, 0x00#8, 0x00#8, 0x00#8, 0x01#8, 0x01#8, 0x4D#8, 0x01#8, 0x5A#8, 0x8C#8, 0x84#8]

/-- The record S1 with the mode byte `m`, the fan byte `f` and the swing and flag byte `x` (S1 itself: 01, 02, 0D). -/
def rec1 (m f x : Byte) : List Byte :=
  [0xA5#8, 0x00#8, 0x18#8, 0x00#8, 0x00#8, 0x00#8, m, 0x00#8, f, 0x00#8, 0x00#8, 0x12#8]
    ++ [0x00#8, x, 0x00#8, 0x00#8, 0x00#8, 0x00#8, 0x00#8, 0x00#8, 0x00#8, 0x00#8, 0x00#8, 0x08#8]

/-- The record S1. -/
def s1 : List Byte := rec1 0x01#8 0x02#8 0x0D#8

/-- The frame bytes of F(p), with the checksum `cs`. -/
def frameBytes (p : List Byte) (cs : Byte) : List Byte :=
  [0x22#8, 0x00#8, 0x00#8, 0x00#8, 0x00#8, 0x00#8, 0x01#8, 0x02#8, 0x6D#8, 0x01#8] ++ p ++ [cs]

/-- A buffer that holds these bytes from index 0 up. -/
def buffer (bs : List Byte) : Memory := Memory.writeAll [] 0 bs

/-- The next byte is byte `i` of POLLC; `crc` is the latched option. -/
def reading (i : Nat) (crc : Bool) : State :=
  { State.reset with
    rstate := .body i, rxn := 0x0A#8, sum := cksum (pollc.take i), crcL := crc, rx := buffer (pollc.take i) }

/-- The checksum of POLLC matched, and CRC byte `k` is awaited. -/
def awaiting (k : Fin 2) : State :=
  { State.reset with
    rstate := .crcb k, rxn := 0x0A#8, sum := 0x5A#8, crcL := true, rx := buffer (pollc.take (11 + k.val)) }

/-- F(p) was delivered, with the checksum `cs`. -/
def received (p : List Byte) (cs : Byte) : State :=
  { State.reset with rxn := 0x22#8, sum := cs, rxValid := true, rx := buffer (frameBytes p cs), evt := 0x02#8 }

/-- V-DEC-1: F1 was delivered and decoded. -/
def decoded : State :=
  { received s1 0x7A#8 with
    base := buffer s1, baseValid := true, mode := some .cool, fan := some .low, fanOther := some .low,
    status := some ⟨24#8, 24, some .cool, some .low, .vertical, true, false, true⟩, evt := 0x07#8 }

/-- V-DEC-1 with the intent `w` pending and CFG.DISPLAY_ON = 1. -/
def intending (w : Intent) : State := { decoded with cfg := 0x02#8, intent := w, intValid := true }

/-- The record of a list of 24 bytes. -/
def record (bs : List Byte) : Record := fun j => bs.getD j.val 0#8

theorem test_reading_inv : FscInv (reading 1 false) ∧ FscInv (reading 9 false) ∧ FscInv (reading 10 true) :=
  ⟨inv_of_check (by decide), inv_of_check (by decide), inv_of_check (by decide)⟩

theorem test_awaiting_inv : FscInv (awaiting 0) ∧ FscInv (awaiting 1) :=
  ⟨inv_of_check (by decide), inv_of_check (by decide)⟩

theorem test_decoded_inv : FscInv decoded := inv_of_check (by decide)

/-! ## One step of each command -/

/-- V-CTL-3. -/
theorem test_nop : after (exec .nop decoded) = some { decoded with evt := 0x00#8 } := by decide
/-- V-FR-6: the checksum byte of POLL. -/
theorem test_feed_checksum :
    (after (exec (.feed 0x5A#8) (reading 10 false))).map (fun t => (t.evt, t.rxFrame, t.stat)) =
      some (0x02#8, some (pollc.take 11), 0x01#8) := by decide
/-- V-CRC-3 and V-CRC-4: the low CRC byte of POLLC. -/
theorem test_feed_crc :
    (after (exec (.feed 0x84#8) (awaiting 1))).map (fun t => (t.evt, t.rxFrame, t.stat)) =
      some (0x02#8, some pollc, 0x03#8)
    ∧ (after (exec (.feed 0x85#8) (awaiting 1))).map (fun t => (t.evt, t.rstate, t.stat)) =
      some (0x05#8, .hunt 0, 0x00#8) := by decide +kernel
/-- V-FR-12: the third TICK. -/
theorem test_tick_times_out :
    (after (exec .tick { reading 2 false with idle := 2 })).map (fun t => (t.evt, t.rstate, t.idle)) =
      some (0x06#8, .hunt 0, 0) := by decide
/-- V-FR-16. -/
theorem test_hunt :
    (after (exec .hunt (reading 5 false))).map (fun t => (t.evt, t.rstate, t.stat)) = some (0x00#8, .hunt 0, 0x00#8) := by
  decide
/-- V-CTL-1, and the order of the three bits (V-ENC-5). -/
theorem test_setcfg :
    (after (exec (.setcfg true true true) State.reset)).map (fun t => (t.evt, t.cfg)) = some (0x12#8, 0x07#8)
    ∧ (after (exec (.setcfg true false false) State.reset)).map (fun t => (t.evt, t.cfg)) = some (0x12#8, 0x04#8) := by
  decide
/-- V-INT-2. -/
theorem test_setint :
    (after (exec (.setint { noFields with tp := true, tv := 22#8, mp := true, mv := 2#3 }) decoded)).map
      (fun t => (t.evt, t.intent, t.stat)) = some (0x0F#8, ⟨some .cool, none, none, some 22#8, none⟩, 0x0D#8) := by decide
/-- V-INT-1. -/
theorem test_setint_ignored :
    after (exec (.setint { noFields with mp := true, mv := 3#3 }) State.reset) =
      some { State.reset with evt := 0x10#8 } := by decide
/-- V-INT-4. -/
theorem test_clrint :
    (after (exec .clrint (intending ⟨some .heat, none, none, none, none⟩))).map (fun t => (t.evt, t.intent, t.stat)) =
      some (0x11#8, ⟨none, none, none, none, none⟩, 0x05#8) := by decide
/-- V-DEC-1. -/
theorem test_decode_f1 : after (exec .decode (received s1 0x7A#8)) = some decoded := by decide
/-- V-DEC-9: FAN_ONLY stays, so the fan speed goes to FAN_FO. -/
theorem test_decode_unmapped_mode :
    (after (exec .decode { received (rec1 0x07#8 0x01#8 0x0D#8) 0x7F#8 with
        mode := some .fanOnly, fan := some .high, fanFo := some .high })).map
      (fun t => (t.mode, t.fan, t.fanFo, t.fanOther)) = some (some .fanOnly, some .mid, some .mid, none) := by decide
/-- V-ENC-2. -/
theorem test_encode :
    (after (exec .encode (intending ⟨some .heat, none, none, some 22#8, none⟩))).map
      (fun t => (t.evt, t.encFlags, t.stat, t.txp.readAll 0 24)) =
      some (0x0A#8, 0b00#2, 0x1D#8, some (rec1 0x02#8 0x02#8 0x0D#8 |>.set 23 0x06#8)) := by decide
/-- V-ENC-7: the mode is applied, and the fan byte stays. -/
theorem test_encode_fan_rejected :
    (after (exec .encode (intending ⟨some .fanOnly, some .auto, none, none, none⟩))).map
      (fun t => (t.encFlags, t.txp.readAll 0 24)) = some (0b01#2, some (rec1 0x03#8 0x02#8 0x0D#8)) := by decide
/-- V-BLD-2. -/
theorem test_build :
    (after (exec (.build false 0x01#8 0x4D#8 0x01#8) { State.reset with cfg := 0x01#8 })).map
      (fun t => (t.evt, t.txlen, t.txFrame)) = some (0x0C#8, 15, some ([0xFF#8, 0xFF#8] ++ pollc)) := by decide +kernel
/-- V-BLD-3. -/
theorem test_build_no_payload :
    after (exec (.build true 0x01#8 0x4D#8 0x01#8) State.reset) = some { State.reset with evt := 0x0D#8 } := by decide
/-- V-CTL-4. -/
theorem test_reset :
    after (exec .reset { decoded with txlen := 13, cfg := 0x03#8 }) = some State.reset := by decide
/-- V-CW-2, reserved opcodes. -/
theorem test_reserved :
    [Instr.reservedB 0#28, .reservedC 0#28, .reservedD 0#28, .reservedE 0#28, .reservedF 0xFFFFFFF#28].all
      (fun i => decide (after (exec i decoded) = some { decoded with evt := 0x14#8 })) = true := by decide
/-- V-FR-21: an ILLEGAL FEED word is no byte. -/
theorem test_illegal_word :
    after (stepWord 0x10000100#32 { reading 2 false with idle := 2 }) =
      some { reading 2 false with idle := 2, evt := 0x14#8 } := by decide

/-- V-CRC-1. -/
theorem test_crc16 :
    crc16 [0x00#8] = 0x0000#16 ∧ crc16 ((frameBytes s1 0x7A#8).take 34) = 0xB397#16
    ∧ crc16 [0x0A#8, 0x01#8, 0x00#8, 0x00#8, 0x00#8, 0x00#8, 0x00#8, 0x01#8, 0x4D#8, 0x01#8] = 0xE088#16 := by decide +kernel
/-- V-CRC-2. -/
theorem test_cksum :
    cksum [] = 0x00#8 ∧ cksum [0xFF#8, 0x01#8] = 0x00#8 ∧ cksum ((frameBytes s1 0x7A#8).take 34) = 0x7A#8 := by decide

/-! ## What the host asks: every row of the opcode table is decoded and run as the first command after reset -/

theorem test_host_words :
    ([0, 1, 2, 3, 4, 5, 6, 7, 8, 9, 10, 11, 12, 13, 14, 15] : List Nat).all (fun op =>
      (decodeTableWord 32 (op <<< 28)).isSome
        && (after (step (State.reset.withFetchWord 32 (op <<< 28)))).isSome) = true := by decide

/-! ## Witnesses: states and operands that meet the hypotheses of each statement, each clause at the ends of its range -/

/-- A command that goes on. -/
theorem next_of_after {o : Host.Outcome State Fault Refusal} {t : State} (h : after o = some t) : o = .next t := by
  cases o <;> simp_all [after]

/-- Header search after `m` markers. -/
def hunting (m : Fin 3) : State := { State.reset with rstate := .hunt m }

theorem hunting_inv : FscInv (hunting 0) ∧ FscInv (hunting 1) ∧ FscInv (hunting 2) :=
  ⟨inv_of_check (by decide), inv_of_check (by decide), inv_of_check (by decide)⟩

theorem witness_ResetLeavesTheStatedValues :
    (∃ c, State.reset = State.resetWith c) ∧ ∃ s, exec .reset decoded = .next s := ⟨⟨_, rfl⟩, _, rfl⟩

theorem witness_ReservedOpcodesWriteOnlyEvt :
    Instr.reservedF 5#28 ∈ [Instr.reservedB 5#28, .reservedC 5#28, .reservedD 5#28, .reservedE 5#28, .reservedF 5#28]
    ∧ 0xB ≤ (0xB0000000#32).toNat / 2 ^ 28 ∧ 0xB ≤ (0xFFFFFFFF#32).toNat / 2 ^ 28 := by
  decide

theorem witness_FeedOfAMarkerIsCounted :
    (hunting 0).rstate = .hunt 0 ∧ (hunting 1).rstate = .hunt 1 ∧ (hunting 2).rstate = .hunt 2 := by decide

theorem witness_FeedOfGarbageRestartsTheCount :
    (hunting 1).rstate = .hunt 1 ∧ (1 : Fin 3).val < 2 ∧ 0xFE#8 ≠ 0xFF#8 := by decide

theorem witness_FeedTakesTheLengthByte :
    (hunting 2).rstate = .hunt 2 ∧ ([0x08#8, 0x3D#8, 0x07#8, 0x3E#8] : List Byte).all (fun b => decide (b ≠ 0xFF#8)) = true
    ∧ (8 ≤ (0x08#8).toNat ∧ (0x3D#8).toNat ≤ min ((hunting 2).config.maxFrameSize - 3) 255)
    ∧ ¬ 8 ≤ (0x07#8).toNat ∧ ¬ (0x3E#8).toNat ≤ min ((hunting 2).config.maxFrameSize - 3) 255 := by decide

theorem witness_FeedStoresAFrameByte :
    (FscInv (reading 1 false) ∧ (reading 1 false).rstate = .body 1 ∧ 1 < (reading 1 false).rxn.toNat)
    ∧ FscInv (reading 9 false) ∧ (reading 9 false).rstate = .body 9 ∧ 9 < (reading 9 false).rxn.toNat :=
  ⟨⟨test_reading_inv.1, by decide⟩, test_reading_inv.2.1, by decide⟩

theorem witness_FeedComparesTheChecksum :
    FscInv (reading 10 true) ∧ FscInv (reading 10 false)
    ∧ (reading 10 true).rstate = .body (reading 10 true).rxn.toNat
    ∧ (reading 10 false).rstate = .body (reading 10 false).rxn.toNat
    ∧ 0x5B#8 ≠ (reading 10 true).sum ∧ 0x5A#8 = (reading 10 true).sum ∧ 0x5A#8 = (reading 10 false).sum
    ∧ (reading 10 true).crcL = true ∧ (reading 10 false).crcL = false :=
  ⟨test_reading_inv.2.2, inv_of_check (by decide), by decide⟩

theorem witness_FeedStoresTheHighCrcByte : FscInv (awaiting 0) ∧ (awaiting 0).rstate = .crcb 0 :=
  ⟨test_awaiting_inv.1, rfl⟩

theorem witness_FeedComparesTheCrc :
    FscInv (awaiting 1) ∧ (awaiting 1).rstate = .crcb 1 ∧ 0x8C#8 ++ 0x84#8 = crc16 (pollc.take 10)
    ∧ 0x8C#8 ++ 0x85#8 ≠ crc16 (pollc.take 10) :=
  ⟨test_awaiting_inv.2, rfl, by decide +kernel⟩

theorem witness_FeedWritesOnlyTheReader :
    (∃ t, exec (.feed 0x08#8) (hunting 2) = .next t ∧ lengthOk (hunting 2).config 0x08#8 = true)
    ∧ (∃ t, exec (.feed 0x07#8) (hunting 2) = .next t ∧ lengthOk (hunting 2).config 0x07#8 = false)
    ∧ (∃ t, exec (.feed 0x00#8) (reading 1 false) = .next t) ∧ (∃ t, exec (.feed 0x8C#8) (awaiting 0) = .next t)
    ∧ ∃ t, exec (.feed 0x84#8) (awaiting 1) = .next t := by
  refine ⟨⟨_, rfl, by decide⟩, ⟨_, rfl, by decide⟩, ⟨_, rfl⟩, ⟨_, rfl⟩, ?_⟩
  exact ⟨_, next_of_after (t := { awaiting 1 with
    rx := (awaiting 1).rx.write 12 0x84#8, rxValid := true, rxCrc := true, rstate := .hunt 0, evt := 0x02#8 })
    (by decide +kernel)⟩

theorem witness_TickCountsOrTimesOut :
    State.reset.rstate = .hunt 0
    ∧ ((reading 2 false).rstate ≠ .hunt 0 ∧ (reading 2 false).config.intraTimeout ≤ 2 + 1)
    ∧ (hunting 1).rstate ≠ .hunt 0 ∧ 1 + 1 < (hunting 1).config.intraTimeout := by decide

theorem witness_SilenceOfIntraTimeoutTicksTimesOut :
    1 ≤ (hunting 1).config.intraTimeout ∧ (hunting 1).rstate ≠ .hunt 0 ∧ (hunting 1).idle = 0
    ∧ 1 ≤ (reading 2 false).config.intraTimeout ∧ (reading 2 false).rstate ≠ .hunt 0 ∧ (reading 2 false).idle = 0 := by
  decide

theorem witness_OnlyReaderCommandsMoveTheReader :
    (∀ b, Instr.nop ≠ .feed b) ∧ Instr.nop ≠ .tick ∧ Instr.nop ≠ .hunt ∧ Instr.nop ≠ .reset
    ∧ ∃ t, exec .nop (reading 2 false) = .next t :=
  ⟨by simp, by simp, by simp, by simp, _, rfl⟩

theorem witness_FrameInProgressIgnoresTheConfiguration :
    (∀ m, (reading 2 false).rstate ≠ .hunt m) ∧ ∃ t, exec (.feed 0x00#8) (reading 2 false) = .next t :=
  ⟨by simp [reading], _, rfl⟩

/-- POLL and POLLC after their length byte. -/
theorem witness_ReaderDeliversExactlyTheAcceptedFrames :
    FscInv (hunting 2) ∧ (hunting 2).rstate = .hunt 2 ∧ lengthOk (hunting 2).config 0x0A#8 = true ∧ 0x0A#8 ≠ 0xFF#8
    ∧ ((pollc.take 11).drop 1).length = (0x0A#8).toNat + (if (hunting 2).crcEn then 2 else 0)
    ∧ accepts (hunting 2).config (hunting 2).crcEn (pollc.take 11) = true
    ∧ accepts (hunting 2).config (hunting 2).crcEn ((pollc.take 11).set 10 0x5B#8) = false
    ∧ FscInv { hunting 2 with cfg := 0x01#8 }
    ∧ (pollc.drop 1).length = (0x0A#8).toNat + (if State.crcEn { hunting 2 with cfg := 0x01#8 } then 2 else 0)
    ∧ accepts Config.reference true pollc = true ∧ accepts Config.reference true (pollc.set 12 0x85#8) = false :=
  ⟨hunting_inv.2.2, rfl, by decide, by decide, by decide, by decide, by decide, inv_of_check (by decide), by decide,
    by decide +kernel, by decide +kernel⟩

theorem witness_BackToBackFramesAreBothDelivered :
    FscInv (hunting 0) ∧ (hunting 0).rstate = .hunt 0 ∧ (pollc.take 11).head? ≠ some 0xFF#8
    ∧ accepts (hunting 0).config (hunting 0).crcEn (pollc.take 11) = true :=
  ⟨hunting_inv.1, rfl, by decide, by decide⟩

theorem witness_MarkersAndABadLengthResynchronize :
    (∃ m, (hunting 0).rstate = .hunt m) ∧ 0x07#8 ≠ 0xFF#8 ∧ lengthOk (hunting 0).config 0x07#8 = false
    ∧ lengthOk (hunting 0).config 0x3E#8 = false :=
  ⟨⟨0, rfl⟩, by decide⟩

theorem witness_SingleBitChangeIsDropped :
    FscInv (hunting 2) ∧ (hunting 2).rstate = .hunt 2 ∧ 0x0A#8 ≠ 0xFF#8
    ∧ accepts (hunting 2).config (hunting 2).crcEn (0x0A#8 :: (pollc.take 11).drop 1) = true
    ∧ 0 < (0x0A#8).toNat ∧ 9 < (0x0A#8).toNat :=
  ⟨hunting_inv.2.2, rfl, by decide⟩

/-- POLL from header search ends in FRAME_READY. -/
theorem witness_FrameNeedsAllItsBytes :
    FscInv (hunting 0) ∧ (hunting 0).rstate = .hunt 0
    ∧ ∃ t, runs (feeds ([0xFF#8, 0xFF#8] ++ pollc.take 11)) (hunting 0) =
        some (List.replicate 12 0x01#8 ++ [0x02#8], t) := by
  refine ⟨hunting_inv.1, rfl, { reading 10 false with
    rx := buffer (pollc.take 11), rxValid := true, rstate := .hunt 0, evt := 0x02#8 }, ?_⟩
  decide +kernel

/-- The two lists differ at places 0 and 15: a burst of 16 bits, from place 0. -/
theorem witness_CrcDetectsBurstsOfSixteenBits :
    ([0x00#8, 0x00#8, 0x55#8] : List Byte).length = ([0x01#8, 0x80#8, 0x55#8] : List Byte).length
    ∧ ([0x00#8, 0x00#8, 0x55#8] : List Byte) ≠ [0x01#8, 0x80#8, 0x55#8]
    ∧ ∀ j, (j < 0 ∨ 0 + 16 ≤ j) → ∀ x y : Byte, ([0x00#8, 0x00#8, 0x55#8] : List Byte)[j / 8]? = some x →
        ([0x01#8, 0x80#8, 0x55#8] : List Byte)[j / 8]? = some y → x.getLsbD (j % 8) = y.getLsbD (j % 8) := by
  refine ⟨rfl, by decide, fun j hj x y hx hy => ?_⟩
  have h : 2 ≤ j / 8 := by omega
  obtain ⟨k, hk⟩ : ∃ k, j / 8 = k + 2 := ⟨j / 8 - 2, by omega⟩
  simp only [hk, List.getElem?_cons_succ] at hx hy
  rw [hx] at hy
  rw [Option.some.inj hy]

theorem witness_DecodeRefusesWithoutARecord :
    State.reset.rxValid = false ∧ State.rxValid { received s1 0x7A#8 with rxn := 0x21#8 } = true
    ∧ (State.rxn { received s1 0x7A#8 with rxn := 0x21#8 }).toNat < 34 := by decide

/-- F(p) of §2 with S1, delivered: RXN = 34 is the least length that has a record. -/
theorem witness_received (p : List Byte) (cs : Byte) (h : ∀ j : Fin 24, (received p cs).rx.read (10 + j.val) = some (record p j)) :
    (received p cs).config.Wf ∧ (received p cs).rxValid = true ∧ 34 ≤ (received p cs).rxn.toNat
    ∧ HoldsRecord (received p cs).rx 10 (record p)
    ∧ exec .decode (received p cs) = .next (decodeRecord (record p) (received p cs)) :=
  ⟨by show Config.reference.Wf; decide, rfl, Nat.le_refl 34, h,
    execDecode_of_record rfl (Nat.le_refl 34) h⟩

theorem witness_DecodeCopiesTheRecordIntoBase :
    (received s1 0x7A#8).rxValid = true ∧ 34 ≤ (received s1 0x7A#8).rxn.toNat
    ∧ HoldsRecord (received s1 0x7A#8).rx 10 (record s1) :=
  ⟨rfl, by decide, (witness_received s1 0x7A#8 (by decide)).2.2.2.1⟩

/-- The three clauses: power off (S1[11 = 10]), a mapped mode (S1), an unmapped mode (S1[6 = 07]). -/
theorem witness_DecodeMapsTheMode :
    (∃ t, exec .decode (received s1 0x7A#8) = .next t) ∧ getBit (record (s1.set 11 0x10#8)) Layout.reference.power = false
    ∧ HoldsRecord (received (s1.set 11 0x10#8) 0x78#8).rx 10 (record (s1.set 11 0x10#8))
    ∧ (getBit (record s1) Layout.reference.power = true
      ∧ modeCode ModeCodes.reference .cool = some (record s1 Layout.reference.mode))
    ∧ HoldsRecord (received (rec1 0x07#8 0x02#8 0x0D#8) 0x80#8).rx 10 (record (rec1 0x07#8 0x02#8 0x0D#8))
    ∧ ∀ m, modeCode ModeCodes.reference m ≠ some (record (rec1 0x07#8 0x02#8 0x0D#8) Layout.reference.mode) :=
  ⟨⟨_, (witness_received s1 0x7A#8 (by decide)).2.2.2.2⟩, by decide, (witness_received _ _ (by decide)).2.2.2.1, by decide,
    (witness_received _ _ (by decide)).2.2.2.1, fun m => by cases m <;> decide⟩

/-- The clauses: a mapped fan (S1), in fan-only mode (S1[6 = 03]) and in another, and an unmapped fan (S1[8 = 09]). -/
theorem witness_DecodeMapsTheFan :
    record s1 Layout.reference.fan = fanCode FanCodes.reference .low
    ∧ (∃ t, exec .decode (received s1 0x7A#8) = .next t ∧ t.mode ≠ some .fanOnly)
    ∧ (∃ t, exec .decode (received (rec1 0x03#8 0x02#8 0x0D#8) 0x7C#8) = .next t ∧ t.mode = some .fanOnly)
    ∧ ∀ f, record (rec1 0x01#8 0x09#8 0x0D#8) Layout.reference.fan ≠ fanCode FanCodes.reference f := by
  refine ⟨by decide, ⟨_, (witness_received s1 0x7A#8 (by decide)).2.2.2.2, ?_⟩,
    ⟨_, (witness_received (rec1 0x03#8 0x02#8 0x0D#8) 0x7C#8 (by decide)).2.2.2.2, ?_⟩, fun f => by cases f <;> decide⟩
  · simp only [decodeRecord_eq]; decide
  · simp only [decodeRecord_eq]; decide

/-- The clauses: S1[10 = 02], S1 (VERTICAL), S1[13 = 0B] (HORIZONTAL) and S1[13 = 09] (OFF), of a SWING_BOTH byte. -/
theorem witness_DecodeDerivesTheSwing :
    Layout.reference.swingBoth = .byte 10 ∧ record (s1.set 10 0x02#8) 10 ≠ 0x00#8 ∧ record s1 10 = 0x00#8
    ∧ getBit (record s1) Layout.reference.swingV = true
    ∧ getBit (record (rec1 0x01#8 0x02#8 0x0B#8)) Layout.reference.swingV = false
    ∧ getBit (record (rec1 0x01#8 0x02#8 0x0B#8)) Layout.reference.swingH = true
    ∧ getBit (record (rec1 0x01#8 0x02#8 0x09#8)) Layout.reference.swingV = false
    ∧ getBit (record (rec1 0x01#8 0x02#8 0x09#8)) Layout.reference.swingH = false
    ∧ ∃ t, exec .decode (received s1 0x7A#8) = .next t :=
  ⟨rfl, by decide, by decide, by decide, by decide, by decide, by decide, by decide,
    _, (witness_received s1 0x7A#8 (by decide)).2.2.2.2⟩

theorem witness_DecodeReadsTemperaturesAndFlags :
    (received s1 0x7A#8).rxValid = true ∧ 34 ≤ (received s1 0x7A#8).rxn.toNat
    ∧ HoldsRecord (received s1 0x7A#8).rx 10 (record s1)
    ∧ ∃ t, exec .decode (received s1 0x7A#8) = .next t :=
  ⟨rfl, by decide, (witness_received s1 0x7A#8 (by decide)).2.2.2.1,
    _, (witness_received s1 0x7A#8 (by decide)).2.2.2.2⟩

/-- DECODE of S1 writes FAN_OTHER, DECODE of S1[6 = 03] writes FAN_FO. -/
theorem witness_FanMemoriesNeverMix :
    (∃ t, exec .decode (received s1 0x7A#8) = .next t ∧ t.fanOther ≠ (received s1 0x7A#8).fanOther)
    ∧ ∃ t, exec .decode (received (rec1 0x03#8 0x02#8 0x0D#8) 0x7C#8) = .next t
        ∧ t.fanFo ≠ (received (rec1 0x03#8 0x02#8 0x0D#8) 0x7C#8).fanFo := by
  refine ⟨⟨_, (witness_received s1 0x7A#8 (by decide)).2.2.2.2, ?_⟩,
    ⟨_, (witness_received (rec1 0x03#8 0x02#8 0x0D#8) 0x7C#8 (by decide)).2.2.2.2, ?_⟩⟩
  · simp only [decodeRecord_eq]; decide
  · simp only [decodeRecord_eq]; decide

theorem witness_SetintReplacesTheWholeIntent :
    noFields.wf = true ∧ IntentWord.wf { noFields with mp := true, mv := 5#3, fp := true, fv := 3#2, sp := true, sv := 3#2 } = true
    ∧ State.reset.baseValid = false ∧ decoded.baseValid = true := by decide

theorem decoded_holds : HoldsRecord decoded.base 0 (record s1) := fun j => by revert j; decide

theorem witness_EncodeNeedsABaselineAndBuildsARecord :
    State.reset.baseValid = false ∧ decoded.baseValid = true ∧ HasRecord decoded.base 0 :=
  ⟨rfl, rfl, _, decoded_holds⟩

/-- ENCODE of V-DEC-1 with any intent: what the statements about the control record assume. -/
theorem witness_encode (w : Intent) :
    (intending w).config.Wf ∧ (intending w).baseValid = true ∧ HoldsRecord (intending w).base 0 (record s1)
    ∧ exec .encode (intending w) = .next (encodeRecord (record s1) (intending w))
    ∧ HoldsRecord (encodeRecord (record s1) (intending w)).txp 0 (controlRecord (record s1) (intending w)) :=
  ⟨by show Config.reference.Wf; decide, rfl, decoded_holds, execEncode_of_record rfl decoded_holds, encodeRecord_txp _ _⟩

/-- The clauses: no mode, OFF, another mode. -/
theorem witness_EncodeWritesTheMode :
    (∃ t, exec .encode (intending .empty) = .next t) ∧ (intending .empty).intent.mode = none
    ∧ (∃ t, exec .encode (intending ⟨some .off, none, none, none, none⟩) = .next t)
    ∧ (∃ t, exec .encode (intending ⟨some .fanOnly, none, none, none, none⟩) = .next t) ∧ Mode.fanOnly ≠ .off :=
  ⟨⟨_, (witness_encode _).2.2.2.1⟩, rfl, ⟨_, (witness_encode _).2.2.2.1⟩, ⟨_, (witness_encode _).2.2.2.1⟩, by decide⟩

/-- The clauses: no fan, AUTO in fan-only mode, AUTO in cool mode (`eff` is the intent's mode, then MODE). -/
theorem witness_EncodeWritesTheFan :
    (∃ t, exec .encode (intending .empty) = .next t ∧ (intending .empty).intent.fan = none)
    ∧ (∃ t, exec .encode (intending ⟨some .fanOnly, some .auto, none, none, none⟩) = .next t)
    ∧ (∃ t, exec .encode (intending ⟨none, some .auto, none, none, none⟩) = .next t)
    ∧ (intending ⟨none, some .auto, none, none, none⟩).mode = some .cool :=
  ⟨⟨_, (witness_encode _).2.2.2.1, rfl⟩, ⟨_, (witness_encode _).2.2.2.1⟩, ⟨_, (witness_encode _).2.2.2.1⟩, rfl⟩

/-- The clauses: no swing, and BOTH with a SWING_BOTH byte; a SWING_BOTH bit is in a layout of its own. -/
theorem witness_EncodeWritesTheSwing :
    (∃ t, exec .encode (intending .empty) = .next t ∧ (intending .empty).intent.swing = none)
    ∧ (∃ t, exec .encode (intending ⟨none, none, some .both, none, none⟩) = .next t)
    ∧ Layout.reference.swingBoth = .byte 10
    ∧ Layout.Wf { Layout.reference with swingBoth := .bit ⟨10, 0⟩ } :=
  ⟨⟨_, (witness_encode _).2.2.2.1, rfl⟩, ⟨_, (witness_encode _).2.2.2.1⟩, rfl, by decide⟩

/-- The clauses at their ends: 16 and 30 are in range, 15 and 31 are not (V-ENC-10). -/
theorem witness_EncodeWritesTheSetpoint :
    (∀ x : Byte, ∃ t, exec .encode (intending ⟨none, none, none, some x, none⟩) = .next t)
    ∧ (Config.reference.tempMin ≤ (16#8).toNat ∧ (30#8).toNat ≤ Config.reference.tempMax)
    ∧ ¬ Config.reference.tempMin ≤ (15#8).toNat ∧ ¬ (31#8).toNat ≤ Config.reference.tempMax :=
  ⟨fun _ => ⟨_, (witness_encode _).2.2.2.1⟩, by decide⟩

/-- Bit 4 of byte 11 of S1 is a reserved bit that is 1. -/
theorem witness_EncodeSetsFlagsAndKeepsReservedBits :
    (∃ t, exec .encode (intending .empty) = .next t) ∧ Reserved Layout.reference ⟨11, 4⟩ ∧ getBit (record s1) ⟨11, 4⟩ = true :=
  ⟨⟨_, (witness_encode _).2.2.2.1⟩, by unfold Reserved; decide, by decide⟩

theorem witness_EncodeWithoutIntentKeepsTheBaseline :
    NoIntent (intending ⟨none, none, none, none, some 5#3⟩) ∧ NoIntent { decoded with cfg := 0x02#8 }
    ∧ (intending .empty).cfg.getLsbD 1 = getBit (record s1) Layout.reference.display
    ∧ (intending .empty).cfg.getLsbD 2 = getBit (record s1) Layout.reference.beeper
    ∧ ∃ t, exec .encode (intending ⟨none, none, none, none, some 5#3⟩) = .next t :=
  ⟨.inr ⟨rfl, rfl, rfl, rfl⟩, .inl rfl, by decide, by decide, _, (witness_encode _).2.2.2.1⟩

theorem witness_PresetHasNoWireEffect : ∃ t, exec .encode (intending .empty) = .next t := ⟨_, (witness_encode _).2.2.2.1⟩

theorem witness_BuildRefusesWithoutAPayload : decoded.txpValid = false := rfl

/-- V-DEC-1 with S1 in TXP. -/
def encodedS1 : State := { decoded with txp := buffer s1, txpValid := true }

theorem encodedS1_inv : FscInv encodedS1 := inv_of_check (by decide)

theorem witness_BuildMakesTheFrame :
    encodedS1.config.Wf ∧ encodedS1.txpValid = true ∧ encodedS1.txp.readAll 0 24 = some s1 ∧ State.reset.config.Wf := by
  refine ⟨?_, rfl, by decide, ?_⟩ <;> (show Config.reference.Wf; decide)

theorem witness_BuiltFrameIsAcceptedByTheReader :
    FscInv encodedS1 ∧ (∃ m, encodedS1.rstate = .hunt m) ∧ encodedS1.txpValid = true :=
  ⟨encodedS1_inv, ⟨0, rfl⟩, rfl⟩

/-- F1 delivered with CFG.DISPLAY_ON = 1. -/
def receivedShown : State := { received s1 0x7A#8 with cfg := 0x02#8 }

theorem witness_EncodedFrameDecodesToTheSameStatus :
    FscInv receivedShown ∧ exec .decode receivedShown = .next { decoded with cfg := 0x02#8 }
    ∧ decoded.evt = 0x07#8 ∧ NoIntent { decoded with cfg := 0x02#8 } ∧ HoldsRecord decoded.base 0 (record s1)
    ∧ (0x02#8 : Byte).getLsbD 1 = getBit (record s1) Layout.reference.display
    ∧ (0x02#8 : Byte).getLsbD 2 = getBit (record s1) Layout.reference.beeper :=
  ⟨inv_of_check (by decide), next_of_after (by decide), rfl, .inl rfl, decoded_holds, by decide, by decide⟩

theorem witness_DecodeOfEncodeIsTheCommand :
    WellFormed (.setint { noFields with mp := true, mv := 5#3, tp := true, tv := 0xFF#8 }) = true := by decide

theorem witness_EncodeOfDecodeIsTheWord : decode 0x5011600A#32 =
    .ok (.setint { noFields with tp := true, tv := 22#8, mp := true, mv := 2#3 }) := by decide

/-- A legal word and an ILLEGAL word at the port, and none. -/
theorem witness_StepRunsTheDecodedCommand :
    State.port { State.reset with port := [0x20000000#32] } = 0x20000000#32 :: [] ∧ decode 0x20000000#32 = .ok .tick
    ∧ decode 0x20000001#32 = .error .reservedBit ∧ State.reset.port = [] ∧ WellFormed .tick = true := by decide

/-- One command of each writer. -/
theorem witness_EveryRegisterHasItsWriters :
    (∃ t, exec .tick (hunting 2) = .next t ∧ t.idle ≠ (hunting 2).idle)
    ∧ (∃ t, exec .hunt (hunting 2) = .next t ∧ t.rstate ≠ (hunting 2).rstate)
    ∧ (∃ t, exec (.feed 0x08#8) { hunting 2 with rxValid := true } = .next t ∧ t.rstate = .body 1 ∧ t.rxn = 0x08#8
      ∧ t.rxValid = false)
    ∧ (∃ t, exec (.setcfg true true true) decoded = .next t ∧ t.cfg ≠ decoded.cfg)
    ∧ (∃ t, exec .decode (received s1 0x7A#8) = .next t ∧ t.baseValid = true)
    ∧ (∃ t, exec .clrint (intending .empty) = .next t ∧ t.intValid = false)
    ∧ (∃ t, exec .encode (intending .empty) = .next t ∧ t.txpValid = true)
    ∧ ∃ t, exec (.build false 0#8 0#8 0#8) State.reset = .next t ∧ t.txValid = true := by
  refine ⟨⟨_, rfl, by decide⟩, ⟨_, rfl, by decide⟩, ⟨_, rfl, rfl, rfl, rfl⟩, ⟨_, rfl, by decide⟩,
    ⟨decoded, next_of_after (by decide), rfl⟩, ⟨_, rfl, rfl⟩, ?_, ⟨_, rfl, rfl⟩⟩
  exact ⟨_, (witness_encode _).2.2.2.1, by simp only [encodeRecord_eq]⟩

theorem witness_EveryCommandEndsWithOneOfItsEvents :
    WellFormed (.setint noFields) = true ∧ ∃ t, exec (.setint noFields) decoded = .next t :=
  ⟨by decide, _, rfl⟩

theorem witness_InvariantHoldsAfterReset : Config.reference.Wf := by decide

/-- An ILLEGAL word of R89 (b) and one of (d), and a legal word. -/
theorem witness_IllegalWordsAreExactlyThose :
    ((0x10000100#32 : Word) >>> 28 = 0x1#32 ∧ ((0x10000100#32 : Word) >>> 8) &&& 0xFFFFF#32 ≠ 0#32)
    ∧ ((0x50000010#32 : Word) >>> 6) &&& 1#32 = 0#32 ∧ decode 0x5000000D#32 ≠ .error .modeValue := by decide

theorem witness_EveryStepKeepsTheInvariant :
    FscInv { decoded with port := [0x80000000#32] }
    ∧ ∃ t, step { decoded with port := [0x80000000#32] } = .next t :=
  ⟨inv_of_check (by decide), _, execEncode_of_record rfl decoded_holds⟩

theorem witness_NoCommandEverStopsTheMachine : FscInv decoded := test_decoded_inv

theorem witness_ReachableStatesSatisfyR47 : Config.reference.Wf ∧ Reachable Config.reference State.reset :=
  ⟨by decide, .reset⟩

theorem witness_EveryStepKeepsTheBuffersInOrder :
    State.config { decoded with port := [0x80000000#32] } = Config.reference ∧ Config.reference.Wf ∧ BuffersOk decoded
    ∧ ∃ t, step { decoded with port := [0x80000000#32] } = .next t :=
  ⟨rfl, by decide, test_decoded_inv.buffers, _, execEncode_of_record rfl decoded_holds⟩

end Sys2Proof.Tests
end

section
/-! PROOFS. The decoder reads back the fields of an encoded command (30_encoding.md R82 to R88), and a step runs
the command that the oldest word at the port decodes to (00_scope.md R15). -/

namespace Sys2Proof

open BitVec (extractLsb'_append_eq_of_le extractLsb'_append_eq_of_add_le extractLsb'_append_eq_right
  extractLsb'_eq_self)

/-! ## The fields of an encoded command

A field is read out of a concatenation by dropping the parts above it and the parts below it. -/

theorem flag_eq_field (w : Word) (i : Nat) : flag w i = (field w i 1).getLsbD 0 := by
  rw [getLsbD_field]
  simp [flag]

theorem getLsbD_bit (b : Bool) : (bit b).getLsbD 0 = b := by
  simp [bit]

theorem field_opcode_encode (i : Instr) : field (encode i) 28 4 = Laws.opcode i := by
  cases i with
  | nop => exact Laws.EncodeOpcode.nop
  | feed b => exact Laws.EncodeOpcode.feed b
  | tick => exact Laws.EncodeOpcode.tick
  | hunt => exact Laws.EncodeOpcode.hunt
  | setcfg bs don ce => exact Laws.EncodeOpcode.setcfg bs don ce
  | setint w => exact Laws.EncodeOpcode.setint w
  | clrint => exact Laws.EncodeOpcode.clrint
  | decode => exact Laws.EncodeOpcode.decode
  | encode => exact Laws.EncodeOpcode.encode
  | build pl ty a0 a1 => exact Laws.EncodeOpcode.build pl ty a0 a1
  | reset => exact Laws.EncodeOpcode.reset
  | reservedB x => exact Laws.EncodeOpcode.reservedB x
  | reservedC x => exact Laws.EncodeOpcode.reservedC x
  | reservedD x => exact Laws.EncodeOpcode.reservedD x
  | reservedE x => exact Laws.EncodeOpcode.reservedE x
  | reservedF x => exact Laws.EncodeOpcode.reservedF x

/-- Below the opcode stand the 28 bits that were put there. -/
theorem field_append_right (op : BitVec 4) (x : BitVec 28) : field (op ++ x) 0 28 = x :=
  extractLsb'_append_eq_right

/-- No field of an intent is lost in its word (30_encoding.md R86). -/
theorem intentWord_encode (w : IntentWord) : intentWord (encode (.setint w)) = w := by
  simp (disch := decide) only [intentWord, encode, flag_eq_field, field, extractLsb'_append_eq_of_le,
    extractLsb'_append_eq_of_add_le, extractLsb'_eq_self, Nat.reduceSub, getLsbD_bit]

/-- The reserved bits of a SETINT word are 0 (30_encoding.md R86). -/
theorem reserved_encode_setint (w : IntentWord) :
    field (encode (.setint w)) 25 3 = 0#3 ∧ flag (encode (.setint w)) 11 = false
      ∧ flag (encode (.setint w)) 7 = false := by
  simp (disch := decide) only [encode, flag_eq_field, field, extractLsb'_append_eq_of_le,
    extractLsb'_append_eq_of_add_le, extractLsb'_eq_self, Nat.reduceSub, BitVec.getLsbD_zero, and_self]

/-- The word of a reserved opcode keeps the bits below it (43_framer_control.md R218). -/
theorem ok_field_append_right (op : BitVec 4) (x : BitVec 28) (c : BitVec 28 → Instr) :
    (Except.ok (c (field (op ++ x) 0 28)) : Except Illegal Instr) = .ok (c x) := by
  rw [field_append_right]

/-! ## Each format decodes its own words -/

theorem decodeF0_encodeF0 (op : BitVec 4) (i : Instr) : decodeF0 (encodeF0 op) i = .ok i :=
  if_pos (field_append_right op 0#28)

theorem decodeFB_encode (b : Byte) : decodeFB (encode (.feed b)) = .ok (.feed b) := by
  have reserved : field (encode (.feed b)) 8 20 = 0#20 := by
    simp (disch := decide) only [encode, field, extractLsb'_append_eq_of_le, extractLsb'_append_eq_right, Nat.reduceSub]
  have value : field (encode (.feed b)) 0 8 = b := extractLsb'_append_eq_right
  rw [decodeFB, if_pos reserved, value]

theorem decodeFC_encode (bs don ce : Bool) : decodeFC (encode (.setcfg bs don ce)) = .ok (.setcfg bs don ce) := by
  have reserved : field (encode (.setcfg bs don ce)) 3 25 = 0#25 := by
    simp (disch := decide) only [encode, field, extractLsb'_append_eq_of_le, extractLsb'_append_eq_right, Nat.reduceSub]
  rw [decodeFC, if_pos reserved]
  simp (disch := decide) only [encode, flag_eq_field, field, extractLsb'_append_eq_of_le,
    extractLsb'_append_eq_of_add_le, extractLsb'_eq_self, Nat.reduceSub, getLsbD_bit]

theorem modeOk_of_wf {w : IntentWord} (hw : w.wf = true) : w.modeOk = true := by
  simp only [IntentWord.wf, Bool.and_eq_true] at hw
  simp [hw]

theorem decodeFI_encode {w : IntentWord} (hw : w.wf = true) : decodeFI (encode (.setint w)) = .ok (.setint w) := by
  obtain ⟨high, bit11, bit7⟩ := reserved_encode_setint w
  simp [decodeFI, high, bit11, bit7, intentWord_encode, modeOk_of_wf hw, hw]

theorem decodeFT_encode (pl : Bool) (ty a0 a1 : Byte) :
    decodeFT (encode (.build pl ty a0 a1)) = .ok (.build pl ty a0 a1) := by
  have reserved : field (encode (.build pl ty a0 a1)) 25 3 = 0#3 := by
    simp (disch := decide) only [encode, field, extractLsb'_append_eq_of_le, extractLsb'_append_eq_right, Nat.reduceSub]
  rw [decodeFT, if_pos reserved]
  simp (disch := decide) only [encode, flag_eq_field, field, extractLsb'_append_eq_of_le,
    extractLsb'_append_eq_of_add_le, extractLsb'_eq_self, Nat.reduceSub, getLsbD_bit]

/-- The opcode picks the format the command was encoded in, and the format returns its fields. -/
theorem decode_encode {i : Instr} (hi : WellFormed i = true) : decode (encode i) = .ok i := by
  unfold decode
  rw [field_opcode_encode]
  cases i with
  | nop => exact decodeF0_encodeF0 _ _
  | feed b => exact decodeFB_encode b
  | tick => exact decodeF0_encodeF0 _ _
  | hunt => exact decodeF0_encodeF0 _ _
  | setcfg bs don ce => exact decodeFC_encode bs don ce
  | setint w => exact decodeFI_encode hi
  | clrint => exact decodeF0_encodeF0 _ _
  | decode => exact decodeF0_encodeF0 _ _
  | encode => exact decodeF0_encodeF0 _ _
  | build pl ty a0 a1 => exact decodeFT_encode pl ty a0 a1
  | reset => exact decodeF0_encodeF0 _ _
  | reservedB x => exact ok_field_append_right 0xB#4 x .reservedB
  | reservedC x => exact ok_field_append_right 0xC#4 x .reservedC
  | reservedD x => exact ok_field_append_right 0xD#4 x .reservedD
  | reservedE x => exact ok_field_append_right 0xE#4 x .reservedE
  | reservedF x => exact ok_field_append_right 0xF#4 x .reservedF

end Sys2Proof

/-! ## What a step does with the command port -/

namespace Sys2Proof.Machine

/-- A word that decodes is its command. -/
theorem stepWord_of_decode {w : Word} {i : Instr} (h : decode w = .ok i) (s : State) : stepWord w s = exec i s := by
  simp [stepWord, h]

/-- A word that does not decode is ILLEGAL, and writes EVT only (30_encoding.md R89, 43_framer_control.md R217). -/
theorem stepWord_of_decode_error {w : Word} {e : Illegal} (h : decode w = .error e) (s : State) :
    stepWord w s = .next { s with evt := 0x14#8 } := by
  simp [stepWord, h, illegal, emit, Event.code]

theorem step_of_port_nil {s : State} (h : s.port = []) : step s = .next s := by
  simp [step, h]

theorem step_of_port_cons {s : State} {w : Word} {rest : List Word} (h : s.port = w :: rest) :
    step s = stepWord w { s with port := rest } := by
  simp [step, h]

/-- The word the host puts first is the one the step takes, and the words pending before it stay pending. -/
theorem step_nextWord (w : Word) (s : State) : step (nextWord w s) = stepWord w s :=
  step_of_port_cons (nextWord_port w s)

/-- Settles O52: the word taken is the oldest at the port, and its decoding decides between the command and ILLEGAL; an
encoded command comes back by `decode_encode`. -/
theorem stepRunsTheDecodedCommand : Obligations.StepRunsTheDecodedCommand := by
  intro s
  refine ⟨?command, ?illegalWord, step_of_port_nil, ?encoded⟩
  case command =>
    intro w rest i hport hdec
    rw [step_of_port_cons hport, stepWord_of_decode hdec]
  case illegalWord =>
    intro w rest e hport hdec
    rw [step_of_port_cons hport, stepWord_of_decode_error hdec]
  case encoded =>
    intro i hi
    rw [step_nextWord, stepWord_of_decode (decode_encode hi)]

end Sys2Proof.Machine
end

section
/-! PROOFS. Which fields of the state each command can write (10_state.md R44, 40_frame_reader.md R134). -/

namespace Sys2Proof.Machine

/-- What a command can make of a state `s`: each constructor names the fields its command writes, and whatever it does not
name stays as it is. -/
inductive Writes (s : State) : Instr → State → Prop where
  | event (i : Instr) (e : Byte) : Writes s i { s with evt := e }
  | feed (b : Byte) (r : RState) (n x : Byte) (l v c : Bool) (m : Memory) (e : Byte) :
      Writes s (.feed b) { s with
        rstate := r, idle := 0, rxn := n, sum := x, crcL := l, rxValid := v, rxCrc := c, rx := m, evt := e }
  | tick (r : RState) (n : Nat) (e : Byte) : Writes s .tick { s with rstate := r, idle := n, evt := e }
  | hunt (r : RState) (n : Nat) (e : Byte) : Writes s .hunt { s with rstate := r, idle := n, evt := e }
  | setcfg (bs don ce : Bool) (x e : Byte) : Writes s (.setcfg bs don ce) { s with cfg := x, evt := e }
  | setint (w : IntentWord) (n : Intent) (v : Bool) (e : Byte) :
      Writes s (.setint w) { s with intent := n, intValid := v, evt := e }
  | clrint (n : Intent) (v : Bool) (e : Byte) : Writes s .clrint { s with intent := n, intValid := v, evt := e }
  | decode (md : Option Mode) (f fo oth : Option Fan) (r : Option StatusRecord) (m : Memory) (v : Bool) (e : Byte) :
      Writes s .decode { s with
        mode := md, fan := f, fanFo := fo, fanOther := oth, status := r, base := m, baseValid := v, evt := e }
  | encode (m : Memory) (v : Bool) (x : BitVec 2) (e : Byte) :
      Writes s .encode { s with txp := m, txpValid := v, encFlags := x, evt := e }
  | build (pl : Bool) (ty a0 a1 : Byte) (m : Memory) (n : Nat) (v : Bool) (e : Byte) :
      Writes s (.build pl ty a0 a1) { s with tx := m, txlen := n, txValid := v, evt := e }
  | reset : Writes s .reset { State.resetWith s.config with port := s.port }

theorem execFeed_writes {b : Byte} {s t : State} (h : execFeed b s = .next t) : Writes s (.feed b) t := by
  cases execFeed_next h <;> exact .feed ..

theorem execTick_writes {s t : State} (h : execTick s = .next t) : Writes s .tick t := by
  obtain ⟨-, rfl⟩ | ⟨-, -, rfl⟩ | ⟨-, -, rfl⟩ := execTick_next h
  · exact .event ..
  · exact .tick ..
  · exact .tick ..

theorem execSetint_writes {w : IntentWord} {s t : State} (h : execSetint w s = .next t) : Writes s (.setint w) t := by
  obtain ⟨-, rfl⟩ | ⟨-, -, rfl⟩ | ⟨-, -, rfl⟩ := execSetint_next h
  · exact .event ..
  · exact .event ..
  · exact .setint ..

theorem execDecode_writes {s t : State} (h : execDecode s = .next t) : Writes s .decode t := by
  obtain ⟨-, rfl⟩ | ⟨-, -, rfl⟩ | ⟨p, -, -, -, rfl⟩ := execDecode_next h
  · exact .event ..
  · exact .event ..
  · rw [decodeRecord_eq]
    exact .decode ..

theorem execEncode_writes {s t : State} (h : execEncode s = .next t) : Writes s .encode t := by
  obtain ⟨-, rfl⟩ | ⟨p, -, -, rfl⟩ := execEncode_next h
  · exact .event ..
  · rw [encodeRecord_eq]
    exact .encode ..

theorem execBuild_writes {pl : Bool} {ty a0 a1 : Byte} {s t : State} (h : execBuild pl ty a0 a1 s = .next t) :
    Writes s (.build pl ty a0 a1) t := by
  obtain ⟨-, -, rfl⟩ | ⟨-, rfl⟩ | ⟨payload, -, -, -, rfl⟩ := execBuild_next h
  · exact .event ..
  · exact .event ..
  · rw [putTx_eq]
    exact .build ..

/-- An ILLEGAL word writes EVT only (43_framer_control.md R217). -/
theorem illegal_next {s t : State} (h : illegal s = .next t) : t = { s with evt := 0x14#8 } :=
  (Host.Outcome.next.inj h).symm

/-- A command that goes on has written only the fields `Writes` names for it. -/
theorem exec_writes {i : Instr} {s t : State} (h : exec i s = .next t) : Writes s i t := by
  cases i with
  | nop => obtain rfl := Host.Outcome.next.inj h; exact .event ..
  | feed b => exact execFeed_writes h
  | tick => exact execTick_writes h
  | hunt => obtain rfl := Host.Outcome.next.inj h; exact .hunt ..
  | setcfg bs don ce => obtain rfl := Host.Outcome.next.inj h; exact .setcfg ..
  | setint w => exact execSetint_writes h
  | clrint => obtain rfl := Host.Outcome.next.inj h; exact .clrint ..
  | decode => exact execDecode_writes h
  | encode => exact execEncode_writes h
  | build pl ty a0 a1 => exact execBuild_writes h
  | reset => obtain rfl := Host.Outcome.next.inj h; exact .reset
  | reservedB x => obtain rfl := illegal_next h; exact .event ..
  | reservedC x => obtain rfl := illegal_next h; exact .event ..
  | reservedD x => obtain rfl := illegal_next h; exact .event ..
  | reservedE x => obtain rfl := illegal_next h; exact .event ..
  | reservedF x => obtain rfl := illegal_next h; exact .event ..

/-- No command writes the parameters (10_state.md R20). -/
theorem Writes.config_eq {i : Instr} {s t : State} (h : Writes s i t) : t.config = s.config := by
  cases h <;> rfl

/-- Settles O53: a field that a command's constructor of `Writes` does not name is unchanged, so a change of it names the
command. -/
theorem everyRegisterHasItsWriters : Obligations.EveryRegisterHasItsWriters := by
  intro i s t h hi
  cases exec_writes h with
  | reset => exact absurd rfl hi
  | event => simp
  | feed => simp
  | tick => simp
  | hunt => simp
  | setcfg => simp
  | setint => simp
  | clrint => simp
  | decode => simp
  | encode => simp
  | build => simp

/-- A step that goes on held the state, ran the command of the oldest word at the port, or met an ILLEGAL word. -/
theorem step_next {s t : State} (h : step s = .next t) :
    t = s ∨ (∃ i rest, exec i { s with port := rest } = .next t) ∨ ∃ rest, t = { s with port := rest, evt := 0x14#8 } := by
  cases hp : s.port with
  | nil =>
    rw [step_of_port_nil hp] at h
    exact .inl (Host.Outcome.next.inj h).symm
  | cons w rest =>
    rw [step_of_port_cons hp] at h
    cases hd : decode w with
    | ok i =>
      rw [stepWord_of_decode hd] at h
      exact .inr (.inl ⟨i, rest, h⟩)
    | error e =>
      rw [stepWord_of_decode_error hd] at h
      exact .inr (.inr ⟨rest, (Host.Outcome.next.inj h).symm⟩)

/-- The parameters stay as they are over a step, whatever word it takes. -/
theorem step_config {s t : State} (h : step s = .next t) : t.config = s.config := by
  obtain rfl | ⟨i, rest, hexec⟩ | ⟨rest, rfl⟩ := step_next h
  · rfl
  · exact (exec_writes hexec).config_eq
  · rfl

end Sys2Proof.Machine
end

section
/-! PROOFS. The outcomes of FEED listed in `FeedStep` are exactly its outcomes, and those of a frame in progress do not
mention CFG (10_state.md R28, 70_reset_and_hazards.md R275). -/

namespace Sys2Proof.Machine

/-- The converse of `execFeed_next`: each outcome of 40_frame_reader.md R122 to R128 happens under its conditions. -/
theorem execFeed_of_feedStep {b : Byte} {s t : State} (h : FeedStep b s t) : execFeed b s = .next t := by
  cases h with
  | marker m hr hb => simp [execFeed, feedCase, hr, hb, feedMarker, emit, Event.code]
  | garbage m hr hb hm => simp [execFeed, feedCase, hr, hb, hm, feedGarbage, emit, Event.code]
  | length m hr hb hm hl hi =>
    simp [execFeed, feedCase, hr, hb, hm, feedLength, hl, storeRx, hi, State.crcEn, emit, Event.code]
  | badLength m hr hb hm hl => simp [execFeed, feedCase, hr, hb, hm, feedLength, hl, emit, Event.code]
  | body i hr hi hc => simp [execFeed, feedCase, hr, hi, feedBody, storeRx, hc, emit, Event.code]
  | badChecksum hr hc hb => simp [execFeed, feedCase, hr, feedChecksum, storeRx, hc, hb, emit, Event.code]
  | checksumThenCrc hr hc hb hcrc =>
    simp [execFeed, feedCase, hr, feedChecksum, storeRx, hc, hb, hcrc, emit, Event.code]
  | checksum hr hc hb hcrc => simp [execFeed, feedCase, hr, feedChecksum, storeRx, hc, hb, hcrc, emit, Event.code]
  | crcHigh hr hc => simp [execFeed, feedCase, hr, feedCrcHigh, storeRx, hc, emit, Event.code]
  | crcMatch hi frame hr hc hh hf hcrc =>
    simp [execFeed, feedCase, hr, feedCrcLow, storeRx, hc, Memory.read_write_of_ne, readAll_write_after, hh, hf, hcrc,
      emit, Event.code]
  | crcMismatch hi frame hr hc hh hf hcrc =>
    simp [execFeed, feedCase, hr, feedCrcLow, storeRx, hc, Memory.read_write_of_ne, readAll_write_after, hh, hf, hcrc,
      emit, Event.code]

/-- An outcome of a frame in progress is the same outcome under another CFG. -/
theorem FeedStep.withCfg {b : Byte} {s t : State} (h : FeedStep b s t) (hr : ∀ m, s.rstate ≠ .hunt m) (v : Byte) :
    FeedStep b { s with cfg := v } { t with cfg := v } := by
  cases h with
  | marker m hm => exact absurd hm (hr m)
  | garbage m hm => exact absurd hm (hr m)
  | length m hm => exact absurd hm (hr m)
  | badLength m hm => exact absurd hm (hr m)
  | body i hi hlt hc => exact .body i hi hlt hc
  | badChecksum hi hc hb => exact .badChecksum hi hc hb
  | checksumThenCrc hi hc hb hcrc => exact .checksumThenCrc hi hc hb hcrc
  | checksum hi hc hb hcrc => exact .checksum hi hc hb hcrc
  | crcHigh hk hc => exact .crcHigh hk hc
  | crcMatch hi frame hk hc hh hf hcrc => exact .crcMatch hi frame hk hc hh hf hcrc
  | crcMismatch hi frame hk hc hh hf hcrc => exact .crcMismatch hi frame hk hc hh hf hcrc

/-- Settles O18: outside header search FEED reads CRC_L and never CFG. -/
theorem frameInProgressIgnoresTheConfiguration : Obligations.FrameInProgressIgnoresTheConfiguration := by
  intro s t b v hr h
  exact execFeed_of_feedStep ((execFeed_next h).withCfg hr v)

end Sys2Proof.Machine
end

section
/-! PROOFS. The bits of STAT (10_state.md R42) and the values after a reset (R46). -/

namespace Sys2Proof.Machine

/-- IN_FRAME says that RSTATE is BODY or CRCB. -/
theorem State.inFrame_iff {s : State} :
    s.inFrame = true ↔ (∃ i, s.rstate = .body i) ∨ ∃ k, s.rstate = .crcb k := by
  unfold State.inFrame
  cases s.rstate <;> simp

theorem inFrame_of_body {s : State} {i : Nat} (h : s.rstate = .body i) : s.inFrame = true :=
  State.inFrame_iff.2 (.inl ⟨i, h⟩)

theorem inFrame_of_crcb {s : State} {k : Fin 2} (h : s.rstate = .crcb k) : s.inFrame = true :=
  State.inFrame_iff.2 (.inr ⟨k, h⟩)

/-- Settles O55: each bit is read out of the concatenation that STAT is. -/
theorem statShowsTheFlags : Obligations.StatShowsTheFlags := by
  intro s
  rw [← State.inFrame_iff]
  simp only [State.stat, BitVec.getLsbD_append]
  simp

/-- The state RESET leaves is that of a power-on reset but for the words at the port (43_framer_control.md R214). -/
theorem exec_reset (s : State) : exec .reset s = .next { State.resetWith s.config with port := s.port } := rfl

/-- Settles O1: both resets leave `State.resetWith` of some parameters, with some words at the port. -/
theorem resetLeavesTheStatedValues : Obligations.ResetLeavesTheStatedValues := by
  refine ⟨fun s hs => ?_, Config.reference, rfl⟩
  obtain ⟨c, ws, rfl⟩ : ∃ c ws, s = { State.resetWith c with port := ws } := by
    obtain ⟨c, rfl⟩ | ⟨u, hu⟩ := hs
    · exact ⟨c, [], rfl⟩
    · rw [exec_reset] at hu
      exact ⟨u.config, u.port, (Host.Outcome.next.inj hu).symm⟩
  simp [State.resetWith, Intent.empty]

end Sys2Proof.Machine
end

section
/-! PROOFS. The bytes the frame reader has stored, and what one more byte makes of them (40_frame_reader.md R124 to R128). -/

namespace Sys2Proof.Machine

/-- The length byte alone is a frame so far, and its own checksum. -/
theorem bodyOk_length (b : Byte) (s : State) : BodyOk 1 { s with rx := s.rx.write 0 b, rxn := b, sum := b } :=
  ⟨[b], by simp [Memory.readAll], rfl, by simp [cksum]⟩

/-- A frame byte lengthens the frame so far and is added to its checksum. -/
theorem BodyOk.snoc {i : Nat} {s : State} (h : BodyOk i s) (b : Byte) :
    BodyOk (i + 1) { s with rx := s.rx.write i b, sum := s.sum + b } := by
  obtain ⟨bs, hread, hhead, hsum⟩ := h
  refine ⟨bs ++ [b], ?_, by simp [List.head?_append, hhead], ?_⟩
  · simpa using Memory.readAll_snoc hread b
  · simp [hsum, cksum]

/-- The checksum byte, when it is the sum, completes a frame whose checksum matched (40_frame_reader.md R126). -/
theorem BodyOk.checksum {s : State} (h : BodyOk s.rxn.toNat s) :
    CrcbOk 0 { s with rx := s.rx.write s.rxn.toNat s.sum } := by
  obtain ⟨bs, hread, hhead, hsum⟩ := h
  have hlen := Memory.readAll_length hread
  refine ⟨bs ++ [s.sum], ?_, by simp [List.head?_append, hhead], ?_⟩
  · simpa using Memory.readAll_snoc hread s.sum
  · simp [← hlen, ← hsum]

/-- A byte put at the end leaves the bytes up to an index of the list as they are. -/
theorem getElem?_and_take_snoc {bs : List Byte} {n : Nat} {x : Byte} (h : bs[n]? = some x) (b : Byte) :
    (bs ++ [b])[n]? = some x ∧ (bs ++ [b]).take n = bs.take n := by
  have hn : n < bs.length := (List.getElem?_eq_some_iff.1 h).1
  exact ⟨by rw [List.getElem?_append_left hn, h], List.take_append_of_le_length hn.le⟩

/-- The high CRC byte is stored after the checksum (40_frame_reader.md R127). -/
theorem CrcbOk.snoc {s : State} (h : CrcbOk 0 s) (b : Byte) :
    CrcbOk 1 { s with rx := s.rx.write (s.rxn.toNat + 1) b } := by
  obtain ⟨bs, hread, hhead, hsum⟩ := h
  obtain ⟨hget, htake⟩ := getElem?_and_take_snoc hsum b
  refine ⟨bs ++ [b], ?_, by simp [List.head?_append, hhead], by rw [htake, hget]⟩
  simpa using Memory.readAll_snoc hread b

theorem BodyOk.read_zero {i : Nat} {s : State} (h : BodyOk i s) (hi : 0 < i) : s.rx.read 0 = some s.rxn := by
  obtain ⟨bs, hread, hhead, -⟩ := h
  rw [← hhead, List.head?_eq_getElem?, ← Memory.read_of_readAll hread hi, Nat.zero_add]

theorem CrcbOk.read_zero {k : Fin 2} {s : State} (h : CrcbOk k s) : s.rx.read 0 = some s.rxn := by
  obtain ⟨bs, hread, hhead, -⟩ := h
  rw [← hhead, List.head?_eq_getElem?, ← Memory.read_of_readAll hread (by omega), Nat.zero_add]

/-- Without the CRC option a frame whose checksum matched is accepted (41_checksum_crc.md R155). -/
theorem CrcbOk.accepted {s : State} (h : CrcbOk 0 s) (hl : lengthOk s.config s.rxn = true) :
    ∃ f, s.rx.readAll 0 (s.rxn.toNat + 1) = some f ∧ accepts s.config false f = true := by
  obtain ⟨bs, hread, hhead, hsum⟩ := h
  exact ⟨bs, hread, (accepts_iff hhead).2 ⟨hl, Memory.readAll_length hread, hsum, by simp⟩⟩

/-- A frame whose checksum matched and whose CRC bytes are those of its body is accepted (41_checksum_crc.md R155). -/
theorem CrcbOk.accepted_crc {s : State} (h : CrcbOk 1 s) (hl : lengthOk s.config s.rxn = true) {hi b : Byte}
    {body : List Byte} (hh : s.rx.read (s.rxn.toNat + 1) = some hi) (hbody : s.rx.readAll 0 s.rxn.toNat = some body)
    (hcrc : hi ++ b = crc16 body) :
    ∃ f, (s.rx.write (s.rxn.toNat + 2) b).readAll 0 (s.rxn.toNat + 1 + 2) = some f ∧ accepts s.config true f = true := by
  obtain ⟨bs, hread, hhead, hsum⟩ := h
  have hlen : bs.length = s.rxn.toNat + 2 := Memory.readAll_length hread
  have hhead' : (bs ++ [b]).head? = some s.rxn := by simp [List.head?_append, hhead]
  obtain ⟨hget, htake⟩ := getElem?_and_take_snoc hsum b
  obtain rfl : body = bs.take s.rxn.toNat :=
    Option.some.inj (hbody.symm.trans (Memory.readAll_take hread (by simp; omega)))
  have hhigh : bs[s.rxn.toNat + 1]? = some hi := by
    rw [← Memory.read_of_readAll hread (by simp), Nat.zero_add, hh]
  obtain ⟨rfl, rfl⟩ := (append_eq_crc hi b _).1 hcrc
  refine ⟨bs ++ [_], by simpa using Memory.readAll_snoc hread _, (accepts_iff hhead').2 ⟨hl, ?_, ?_, fun _ => ⟨?_, ?_⟩⟩⟩
  · simp [hlen]
  · rw [htake, hget]
  · rw [htake, (getElem?_and_take_snoc hhigh _).1]
  · rw [htake, ← hlen, List.getElem?_concat_length]

end Sys2Proof.Machine
end

section
/-! PROOFS. The invariant of 10_state.md R47: it holds after reset, every step keeps it, and so it holds in every reachable
state. A command's lemma lists only the clauses that speak of a field the command writes. -/

namespace Sys2Proof.Machine

/-! ## Reset, and the fields that stand in no clause with others -/

/-- No event has a reserved code (60_exceptions.md R241). -/
theorem Event.code_le (e : Event) : e.code.toNat ≤ 0x14 := by
  cases e <;> decide

/-- SETCFG writes bits 2:0 of CFG only (43_framer_control.md R212). -/
theorem cfgByte_lt (bs don ce : Bool) : (cfgByte bs don ce).toNat < 8 := by
  revert bs don ce
  decide

theorem intraTimeout_pos_of_wf {c : Config} (hc : c.Wf) : 0 < c.intraTimeout := by
  obtain ⟨-, htimeout, -⟩ := hc
  exact htimeout

/-- After a reset nothing is valid and the reader hunts, so only the ranges of the registers say anything. -/
theorem FscInv.reset {c : Config} (hc : c.Wf) (ws : List Word) : FscInv { State.resetWith c with port := ws } where
  config := hc
  buffers := ⟨.nil _, .nil _, .nil _, .nil _⟩
  r47 := by constructor <;> simp [State.resetWith]
  crcbLen := by simp [State.resetWith]
  body := by simp [State.resetWith]
  crcb := by simp [State.resetWith]
  frame := by simp [State.resetWith]
  base := by simp [State.resetWith]
  txp := by simp [State.resetWith]
  tx := by simp [State.resetWith]
  txlen := Nat.zero_le _
  status := by simp [State.resetWith]
  idle := intraTimeout_pos_of_wf hc
  cfg := Nat.zero_lt_succ 7
  evt := Event.code_le .resetDone

/-- Settles O56: both clauses are `FscInv.reset` with no word at the port, the second for the reference parameters. -/
theorem invariantHoldsAfterReset : Obligations.InvariantHoldsAfterReset :=
  ⟨fun _ hc => .reset hc [], .reset (by decide) []⟩

section
variable {s : State} (h : FscInv s)
include h

theorem FscInv.withPort (ws : List Word) : FscInv { s with port := ws } :=
  { h with buffers := { h.buffers with }, r47 := { h.r47 with } }

theorem FscInv.withEvt (e : Event) : FscInv { s with evt := e.code } :=
  { h with buffers := { h.buffers with }, r47 := { h.r47 with }, evt := e.code_le }

/-! ## What the reader's control states give -/

theorem FscInv.rxValid_of_inFrame (hr : s.inFrame = true) : s.rxValid = false := by
  by_contra hv
  obtain ⟨⟨m, hm⟩, -⟩ := h.r47.c (by simpa using hv)
  simp [State.inFrame, hm] at hr

/-- R47 (d): without a delivered frame there is none with a CRC. -/
theorem FscInv.rxCrc_of_rxValid (hv : s.rxValid = false) : s.rxCrc = false := by
  by_contra hc
  simpa [hv] using h.r47.d (by simpa using hc)

theorem FscInv.lengthOk_of_body {i : Nat} (hr : s.rstate = .body i) : lengthOk s.config s.rxn = true := by
  obtain ⟨-, -, hmin, hmax⟩ := h.r47.a i hr
  exact lengthOk_iff.2 ⟨hmin, hmax⟩

/-! ## The moves of the reader

FEED, TICK and HUNT are put together from these: fall back to header search, write the buffer there, and enter the next
control state. -/

/-- Back to header search: what was in progress is dropped, and a delivered frame stays. -/
theorem FscInv.toHunt (m : Fin 3) (e : Event) :
    FscInv { s with rstate := .hunt m, idle := 0, evt := e.code } :=
  { h with
    buffers := { h.buffers with }
    r47 := { h.r47 with
      a := by simp
      b := by simp
      c := fun hv => ⟨⟨m, rfl⟩, (h.r47.c hv).2⟩
      g := fun _ => rfl }
    crcbLen := by simp
    body := by simp
    crcb := by simp
    idle := intraTimeout_pos_of_wf h.config
    evt := e.code_le }

/-- While the reader hunts and no frame is delivered, no clause speaks of the content of RX, RXN, SUM and CRC_L. -/
theorem FscInv.freeBuffer {m : Fin 3} (hr : s.rstate = .hunt m) {rx : Memory} (hrx : BufferOk s.config.bufSize rx)
    (n x : Byte) (l : Bool) {v c : Bool} (hv : v = false) (hc : c = false) :
    FscInv { s with rx := rx, rxn := n, sum := x, crcL := l, rxValid := v, rxCrc := c } :=
  { h with
    buffers := { h.buffers with rx := hrx }
    r47 := { h.r47 with
      a := by simp [hr]
      b := by simp [hr]
      c := by simp [hv]
      d := by simp [hc] }
    crcbLen := by simp [hr]
    body := by simp [hr]
    crcb := by simp [hr]
    frame := by simp [hv] }

/-- A frame in progress falls back to header search with one byte more in RX. -/
theorem FscInv.storeAndHunt (hr : s.inFrame = true) {i : Nat} (hi : i < s.config.bufSize) (b x : Byte) (e : Event) :
    FscInv { s with rx := s.rx.write i b, sum := x, rstate := .hunt 0, idle := 0, evt := e.code } :=
  have hv := h.rxValid_of_inFrame hr
  (h.toHunt 0 e).freeBuffer rfl (h.buffers.rx.write b hi) s.rxn x s.crcL hv (h.rxCrc_of_rxValid hv)

theorem FscInv.toBody {i : Nat} (hv : s.rxValid = false) (hi : 1 ≤ i) (hn : i ≤ s.rxn.toNat)
    (hl : lengthOk s.config s.rxn = true) (hb : BodyOk i s) :
    FscInv { s with rstate := .body i, idle := 0, evt := 0x01#8 } :=
  { h with
    buffers := { h.buffers with }
    r47 := { h.r47 with
      a := by rintro _ ⟨rfl⟩; exact ⟨hi, hn, lengthOk_iff.1 hl⟩
      b := by simp
      c := by simp [hv]
      g := by simp }
    crcbLen := by simp
    body := by rintro _ ⟨rfl⟩; exact hb
    crcb := by simp
    idle := intraTimeout_pos_of_wf h.config
    evt := Event.code_le .incomplete }

theorem FscInv.toCrcb {k : Fin 2} (hv : s.rxValid = false) (hcrc : s.crcL = true)
    (hl : lengthOk s.config s.rxn = true) (hk : CrcbOk k s) :
    FscInv { s with rstate := .crcb k, idle := 0, evt := 0x01#8 } :=
  { h with
    buffers := { h.buffers with }
    r47 := { h.r47 with
      a := by simp
      b := fun _ _ => hcrc
      c := by simp [hv]
      g := by simp }
    crcbLen := fun _ _ => hl
    body := by simp
    crcb := by rintro _ ⟨rfl⟩; exact hk
    idle := intraTimeout_pos_of_wf h.config
    evt := Event.code_le .incomplete }

/-- An accepted frame in RX is delivered to the host (10_state.md R29). -/
theorem FscInv.deliver {m : Fin 3} (hr : s.rstate = .hunt m) (h0 : s.rx.read 0 = some s.rxn) (c : Bool)
    (hf : ∃ f, s.rx.readAll 0 (s.rxn.toNat + 1 + if c then 2 else 0) = some f ∧ accepts s.config c f = true) :
    FscInv { s with rxValid := true, rxCrc := c, evt := 0x02#8 } :=
  { h with
    buffers := { h.buffers with }
    r47 := { h.r47 with
      c := fun _ => ⟨⟨m, hr⟩, h0⟩
      d := fun _ => rfl }
    frame := fun _ => hf
    evt := Event.code_le .frameReady }

/-! ## The commands of the reader -/

theorem FscInv.feedStep {b : Byte} {t : State} (hstep : FeedStep b s t) : FscInv t := by
  cases hstep with
  | marker m hr hb => exact h.toHunt _ .incomplete
  | garbage m hr hb hm => exact h.toHunt _ .incomplete
  | badLength m hr hb hm hl => exact h.toHunt _ .resyncBadLength
  | length m hr hb hm hl hi =>
    have hmin := (lengthOk_iff.1 hl).1
    exact ((h.toHunt 0 .incomplete).freeBuffer rfl (h.buffers.rx.write b hi) b b s.crcEn rfl rfl).toBody rfl le_rfl
      (le_trans (by decide) hmin) hl (bodyOk_length b s)
  | body i hr hi hc =>
    have hin := inFrame_of_body hr
    exact (h.storeAndHunt hin hc b (s.sum + b) .incomplete).toBody (h.rxValid_of_inFrame hin) (Nat.le_add_left 1 i) hi
      (h.lengthOk_of_body hr) ((h.body i hr).snoc b)
  | badChecksum hr hc hb => exact h.storeAndHunt (inFrame_of_body hr) hc b s.sum .resyncChecksum
  | checksumThenCrc hr hc hb hcrc =>
    subst hb
    have hin := inFrame_of_body hr
    exact (h.storeAndHunt hin hc s.sum s.sum .incomplete).toCrcb (h.rxValid_of_inFrame hin) hcrc
      (h.lengthOk_of_body hr) (h.body _ hr).checksum
  | checksum hr hc hb hcrc =>
    subst hb
    have hin := inFrame_of_body hr
    have hok := (h.body _ hr).checksum
    exact (h.storeAndHunt hin hc s.sum s.sum .frameReady).deliver rfl hok.read_zero false
      (hok.accepted (h.lengthOk_of_body hr))
  | crcHigh hr hc =>
    have hin := inFrame_of_crcb hr
    exact (h.storeAndHunt hin hc b s.sum .incomplete).toCrcb (h.rxValid_of_inFrame hin) (h.r47.b _ hr) (h.crcbLen _ hr)
      ((h.crcb _ hr).snoc b)
  | crcMatch hi frame hr hc hh hf hcrc =>
    have hin := inFrame_of_crcb hr
    have hok := h.crcb _ hr
    have h0 : (s.rx.write (s.rxn.toNat + 2) b).read 0 = some s.rxn := by
      rw [Memory.read_write_of_ne _ _ (by omega), hok.read_zero]
    exact (h.storeAndHunt hin hc b s.sum .frameReady).deliver rfl h0 true (hok.accepted_crc (h.crcbLen _ hr) hh hf hcrc)
  | crcMismatch hi frame hr hc hh hf hcrc =>
    exact h.storeAndHunt (inFrame_of_crcb hr) hc b s.sum .resyncCrc

theorem FscInv.tick {t : State} (ht : execTick s = .next t) : FscInv t := by
  obtain ⟨hr, rfl⟩ | ⟨hr, hi, rfl⟩ | ⟨hr, hi, rfl⟩ := execTick_next ht
  · exact h.withEvt .none
  · exact h.toHunt 0 .resyncTimeout
  · exact { h with
      buffers := { h.buffers with }
      r47 := { h.r47 with g := fun h0 => absurd h0 hr }
      idle := hi
      evt := Event.code_le .none }

/-! ## The other commands -/

theorem FscInv.setcfg (bs don ce : Bool) : FscInv { s with cfg := cfgByte bs don ce, evt := 0x12#8 } :=
  { h with
    buffers := { h.buffers with }
    r47 := { h.r47 with }
    cfg := cfgByte_lt bs don ce
    evt := Event.code_le .cfgSet }

/-- An intent is valid only with a baseline (R47 (e)). -/
theorem FscInv.withIntent (n : Intent) {v : Bool} (hv : v = true → s.baseValid = true) (e : Event) :
    FscInv { s with intent := n, intValid := v, evt := e.code } :=
  { h with
    buffers := { h.buffers with }
    r47 := { h.r47 with
      e := by
        rintro (hi | hp)
        · exact hv hi
        · exact h.r47.e (.inr hp) }
    evt := e.code_le }

theorem FscInv.setint {w : IntentWord} {t : State} (ht : execSetint w s = .next t) : FscInv t := by
  obtain ⟨-, rfl⟩ | ⟨-, -, rfl⟩ | ⟨-, hb, rfl⟩ := execSetint_next ht
  · exact h.withEvt .illegal
  · exact h.withEvt .intentIgnored
  · exact h.withIntent _ (fun _ => hb) .intentSet

/-- DECODE fills BASE, and STATUS with it, so that an intent may follow. -/
theorem FscInv.decodeRecord (p : Record) : FscInv (decodeRecord p s) := by
  obtain ⟨f, fo, oth, r, m, heq, hr, hm, -, hbuf⟩ := decodeRecord_shape p s
  rw [heq]
  exact { h with
    buffers := { h.buffers with base := hbuf h.buffers.base }
    r47 := { h.r47 with
      e := fun _ => rfl
      f := by simp }
    base := fun _ => ⟨p, hm⟩
    status := by
      rintro _ ⟨rfl⟩
      subst hr
      exact ⟨rfl, rfl, Nat.le_add_left _ _, Nat.add_le_add_right (Nat.le_of_lt_succ (BitVec.isLt _)) _⟩
    evt := Event.code_le .decoded }

theorem FscInv.decode {t : State} (ht : execDecode s = .next t) : FscInv t := by
  obtain ⟨-, rfl⟩ | ⟨-, -, rfl⟩ | ⟨p, -, -, -, rfl⟩ := execDecode_next ht
  · exact h.withEvt .noFrame
  · exact h.withEvt .structureError
  · exact h.decodeRecord p

/-- ENCODE fills TXP, for which it needs a baseline (R47 (e)). -/
theorem FscInv.encode {t : State} (ht : execEncode s = .next t) : FscInv t := by
  obtain ⟨-, rfl⟩ | ⟨p, hb, -, rfl⟩ := execEncode_next ht
  · exact h.withEvt .encodeRejected
  · obtain ⟨m, heq, hm, -, hbuf⟩ := encodeRecord_shape p s
    rw [heq]
    exact { h with
      buffers := { h.buffers with txp := hbuf h.buffers.txp }
      r47 := { h.r47 with e := fun _ => hb }
      txp := fun _ => ⟨_, hm⟩
      evt := Event.code_le .encoded }

/-- BUILD fills TX with a frame that fits. -/
theorem FscInv.build {pl : Bool} {ty a0 a1 : Byte} {t : State} (ht : execBuild pl ty a0 a1 s = .next t) : FscInv t := by
  obtain ⟨-, -, rfl⟩ | ⟨-, rfl⟩ | ⟨payload, -, -, hfit, rfl⟩ := execBuild_next ht
  · exact h.withEvt .noPayload
  · exact h.withEvt .tooLong
  · obtain ⟨m, heq, hm, -, hbuf⟩ := putTx_shape (buildFrame s.crcEn pl ty a0 a1 payload) s
    rw [heq]
    exact { h with
      buffers := { h.buffers with tx := hbuf hfit h.buffers.tx }
      r47 := { h.r47 with }
      tx := fun _ => ⟨_, hm⟩
      txlen := hfit
      evt := Event.code_le .built }

/-! ## Every step -/

theorem FscInv.illegal {t : State} (ht : illegal s = .next t) : FscInv t := by
  obtain rfl := illegal_next ht
  exact h.withEvt .illegal

theorem FscInv.exec {i : Instr} {t : State} (ht : exec i s = .next t) : FscInv t := by
  cases i with
  | nop => obtain rfl := Host.Outcome.next.inj ht; exact h.withEvt .none
  | feed b => exact h.feedStep (execFeed_next ht)
  | tick => exact h.tick ht
  | hunt => obtain rfl := Host.Outcome.next.inj ht; exact h.toHunt 0 .none
  | setcfg bs don ce => obtain rfl := Host.Outcome.next.inj ht; exact h.setcfg bs don ce
  | setint w => exact h.setint ht
  | clrint => obtain rfl := Host.Outcome.next.inj ht; exact h.withIntent _ (by simp) .intentCleared
  | decode => exact h.decode ht
  | encode => exact h.encode ht
  | build pl ty a0 a1 => exact h.build ht
  | reset => obtain rfl := Host.Outcome.next.inj ht; exact .reset h.config s.port
  | reservedB x => exact h.illegal ht
  | reservedC x => exact h.illegal ht
  | reservedD x => exact h.illegal ht
  | reservedE x => exact h.illegal ht
  | reservedF x => exact h.illegal ht

theorem FscInv.step {t : State} (ht : step s = .next t) : FscInv t := by
  obtain rfl | ⟨i, rest, hexec⟩ | ⟨rest, rfl⟩ := step_next ht
  · exact h
  · exact (h.withPort rest).exec hexec
  · exact (h.withPort rest).withEvt .illegal

end

/-- Settles O57: the step's word is a command that keeps the invariant, or it is ILLEGAL and writes EVT only. -/
theorem everyStepKeepsTheInvariant : Obligations.EveryStepKeepsTheInvariant :=
  fun _ _ hs ht => ⟨hs.step ht, step_config ht⟩

/-- What the host can reach satisfies the whole invariant: it holds at reset, no clause speaks of the words
issued, and every step keeps it. -/
theorem Reachable.inv {c : Config} (hc : c.Wf) {s : State} (h : Reachable c s) : FscInv s := by
  induction h with
  | reset => exact .reset hc []
  | issue ws _ ih => exact ih.withPort _
  | step _ ht ih => exact ih.step ht

/-- Settles O59: R47 is a part of the invariant of every reachable state. -/
theorem reachableStatesSatisfyR47 : Obligations.ReachableStatesSatisfyR47 :=
  fun _ hc _ hs => (hs.inv hc).r47

end Sys2Proof.Machine
end

section
/-! PROOFS. Every step keeps the four buffers in canonical form and within their cells (20_memory.md R60, R61). FEED,
DECODE, ENCODE and BUILD write one buffer each, within its cells; RESET empties all four; no other command
writes one. -/

namespace Sys2Proof.Machine

/-- After a reset every cell is ⊥ (10_state.md R46). -/
theorem BuffersOk.reset (c : Config) (ws : List Word) : BuffersOk { State.resetWith c with port := ws } :=
  ⟨.nil _, .nil _, .nil _, .nil _⟩

section
variable {s t : State} (h : BuffersOk s)
include h

/-- FEED leaves RX alone or stores its byte at a cell of it. -/
theorem BuffersOk.feedStep {b : Byte} (hstep : FeedStep b s t) : BuffersOk t := by
  cases hstep with
  | marker | garbage | badLength => exact { h with }
  | length _ _ _ _ _ hc | body _ _ _ hc | badChecksum _ hc _ | checksumThenCrc _ hc _ _ | checksum _ hc _ _
  | crcHigh _ hc | crcMatch _ _ _ hc _ _ _ | crcMismatch _ _ _ hc _ _ _ =>
    exact { h with rx := h.rx.write b hc }

theorem BuffersOk.decode (ht : execDecode s = .next t) : BuffersOk t := by
  obtain ⟨-, rfl⟩ | ⟨-, -, rfl⟩ | ⟨p, -, -, -, rfl⟩ := execDecode_next ht
  · exact { h with }
  · exact { h with }
  · obtain ⟨f, fo, oth, r, m, heq, -, -, -, hbase⟩ := decodeRecord_shape p s
    rw [heq]
    exact { h with base := hbase h.base }

theorem BuffersOk.encode (ht : execEncode s = .next t) : BuffersOk t := by
  obtain ⟨-, rfl⟩ | ⟨p, -, -, rfl⟩ := execEncode_next ht
  · exact { h with }
  · obtain ⟨m, heq, -, -, htxp⟩ := encodeRecord_shape p s
    rw [heq]
    exact { h with txp := htxp h.txp }

/-- A frame that BUILD writes fits in TX. -/
theorem BuffersOk.build {pl : Bool} {ty a0 a1 : Byte} (ht : execBuild pl ty a0 a1 s = .next t) : BuffersOk t := by
  obtain ⟨-, -, rfl⟩ | ⟨-, rfl⟩ | ⟨payload, -, -, hfit, rfl⟩ := execBuild_next ht
  · exact { h with }
  · exact { h with }
  · obtain ⟨m, heq, -, -, htx⟩ := putTx_shape (buildFrame s.crcEn pl ty a0 a1 payload) s
    rw [heq]
    exact { h with tx := htx hfit h.tx }

/-- A command for which `Writes` names no buffer keeps them as they are; each of the others keeps the one it writes in
order. -/
theorem BuffersOk.exec {i : Instr} (ht : exec i s = .next t) : BuffersOk t := by
  cases exec_writes ht with
  | event | tick | hunt | setcfg | setint | clrint => exact { h with }
  | feed b => exact h.feedStep (execFeed_next ht)
  | decode => exact h.decode ht
  | encode => exact h.encode ht
  | build => exact h.build ht
  | reset => exact .reset s.config s.port

theorem BuffersOk.step (ht : step s = .next t) : BuffersOk t := by
  obtain rfl | ⟨i, rest, hexec⟩ | ⟨rest, rfl⟩ := step_next ht
  · exact h
  · have hport : BuffersOk { s with port := rest } := { h with }
    exact hport.exec hexec
  · exact { h with }

end

/-- Settles O60: the step's word is a command that keeps the buffers in order, or it is ILLEGAL and writes EVT only.
That holds for all parameters, so the constraints on them are not used. -/
theorem everyStepKeepsTheBuffersInOrder : Obligations.EveryStepKeepsTheBuffersInOrder :=
  fun _ _ _ hs ht => hs.step ht

end Sys2Proof.Machine
end

section
/-! PROOFS. A word that decodes to a command is that command's word, and the words that are ILLEGAL (30_encoding.md R81 to
R89). `decode_format` says once which format a word has; each format then has one lemma for when it is a command's. -/

namespace Sys2Proof

/-! ## The opcode map -/

/-- The rows of the opcode map whose words have format F0 (30_encoding.md R82, R83). -/
def rowsF0 : List (BitVec 4 × Instr) :=
  [(0x0#4, .nop), (0x2#4, .tick), (0x3#4, .hunt), (0x6#4, .clrint), (0x7#4, .decode), (0x8#4, .encode), (0xA#4, .reset)]

/-- The reserved rows of the opcode map, and the constructors that stand for them (43_framer_control.md R218). -/
def rowsReserved : List (BitVec 4 × (BitVec 28 → Instr)) :=
  [(0xB#4, .reservedB), (0xC#4, .reservedC), (0xD#4, .reservedD), (0xE#4, .reservedE), (0xF#4, .reservedF)]

theorem rowsF0_cases {op : BitVec 4} {i : Instr} (h : (op, i) ∈ rowsF0) :
    (op = 0x0#4 ∧ i = .nop) ∨ (op = 0x2#4 ∧ i = .tick) ∨ (op = 0x3#4 ∧ i = .hunt) ∨ (op = 0x6#4 ∧ i = .clrint)
      ∨ (op = 0x7#4 ∧ i = .decode) ∨ (op = 0x8#4 ∧ i = .encode) ∨ (op = 0xA#4 ∧ i = .reset) := by
  simpa [rowsF0] using h

theorem rowsReserved_cases {op : BitVec 4} {c : BitVec 28 → Instr} (h : (op, c) ∈ rowsReserved) :
    (op = 0xB#4 ∧ c = .reservedB) ∨ (op = 0xC#4 ∧ c = .reservedC) ∨ (op = 0xD#4 ∧ c = .reservedD)
      ∨ (op = 0xE#4 ∧ c = .reservedE) ∨ (op = 0xF#4 ∧ c = .reservedF) := by
  simpa [rowsReserved] using h

theorem rowsF0_encode {op : BitVec 4} {i : Instr} (h : (op, i) ∈ rowsF0) : encode i = encodeF0 op :=
  (by decide : ∀ row ∈ rowsF0, encode row.2 = encodeF0 row.1) _ h

theorem rowsF0_wellFormed {op : BitVec 4} {i : Instr} (h : (op, i) ∈ rowsF0) : WellFormed i = true :=
  (by decide : ∀ row ∈ rowsF0, WellFormed row.2 = true) _ h

/-- A constructor that stands for a reserved opcode. -/
def IsReserved (i : Instr) : Prop :=
  ∃ x : BitVec 28, i ∈ [Instr.reservedB x, .reservedC x, .reservedD x, .reservedE x, .reservedF x]

theorem rowsF0_not_isReserved {op : BitVec 4} {i : Instr} (h : (op, i) ∈ rowsF0) : ¬ IsReserved i := by
  rintro ⟨x, hx⟩
  obtain ⟨-, rfl⟩ | ⟨-, rfl⟩ | ⟨-, rfl⟩ | ⟨-, rfl⟩ | ⟨-, rfl⟩ | ⟨-, rfl⟩ | ⟨-, rfl⟩ := rowsF0_cases h <;>
    simp at hx

theorem rowsReserved_encode {op : BitVec 4} {c : BitVec 28 → Instr} (h : (op, c) ∈ rowsReserved) (x : BitVec 28) :
    encode (c x) = op ++ x ∧ WellFormed (c x) = true := by
  obtain ⟨rfl, rfl⟩ | ⟨rfl, rfl⟩ | ⟨rfl, rfl⟩ | ⟨rfl, rfl⟩ | ⟨rfl, rfl⟩ := rowsReserved_cases h <;>
    exact ⟨rfl, rfl⟩

theorem rowsReserved_opcode {op : BitVec 4} {c : BitVec 28 → Instr} (h : (op, c) ∈ rowsReserved) : 0xB#4 ≤ op := by
  obtain ⟨rfl, -⟩ | ⟨rfl, -⟩ | ⟨rfl, -⟩ | ⟨rfl, -⟩ | ⟨rfl, -⟩ := rowsReserved_cases h <;> decide

theorem isReserved_of_rowsReserved {op : BitVec 4} {c : BitVec 28 → Instr} (h : (op, c) ∈ rowsReserved)
    (x : BitVec 28) : IsReserved (c x) := by
  refine ⟨x, ?_⟩
  obtain ⟨-, rfl⟩ | ⟨-, rfl⟩ | ⟨-, rfl⟩ | ⟨-, rfl⟩ | ⟨-, rfl⟩ := rowsReserved_cases h <;> simp

/-- The format of a word, by its opcode, and what the decoder then answers. -/
inductive WordFormat (w : Word) : Except Illegal Instr → Prop where
  | f0 {op : BitVec 4} {i : Instr} (row : (op, i) ∈ rowsF0) (hop : field w 28 4 = op) : WordFormat w (decodeF0 w i)
  | fb (hop : field w 28 4 = 0x1#4) : WordFormat w (decodeFB w)
  | fc (hop : field w 28 4 = 0x4#4) : WordFormat w (decodeFC w)
  | fi (hop : field w 28 4 = 0x5#4) : WordFormat w (decodeFI w)
  | ft (hop : field w 28 4 = 0x9#4) : WordFormat w (decodeFT w)
  | reserved {op : BitVec 4} {c : BitVec 28 → Instr} (row : (op, c) ∈ rowsReserved) (hop : field w 28 4 = op) :
      WordFormat w (.ok (c (field w 0 28)))

/-- The opcode as a bit vector, from its number. -/
theorem opcode_eq_ofNat {w : Word} {n : Nat} (h : (field w 28 4).toNat = n) : field w 28 4 = BitVec.ofNat 4 n := by
  rw [← h, BitVec.ofNat_toNat, BitVec.setWidth_eq]

/-- Every word has a format, and `decode` answers what its format gives. -/
theorem decode_format (w : Word) : WordFormat w (decode w) := by
  unfold decode
  split
  case h_1 h => exact .f0 (by simp [rowsF0]) (opcode_eq_ofNat h)
  case h_2 h => exact .fb (opcode_eq_ofNat h)
  case h_3 h => exact .f0 (by simp [rowsF0]) (opcode_eq_ofNat h)
  case h_4 h => exact .f0 (by simp [rowsF0]) (opcode_eq_ofNat h)
  case h_5 h => exact .fc (opcode_eq_ofNat h)
  case h_6 h => exact .fi (opcode_eq_ofNat h)
  case h_7 h => exact .f0 (by simp [rowsF0]) (opcode_eq_ofNat h)
  case h_8 h => exact .f0 (by simp [rowsF0]) (opcode_eq_ofNat h)
  case h_9 h => exact .f0 (by simp [rowsF0]) (opcode_eq_ofNat h)
  case h_10 h => exact .ft (opcode_eq_ofNat h)
  case h_11 h => exact .f0 (by simp [rowsF0]) (opcode_eq_ofNat h)
  case h_12 h => exact .reserved (by simp [rowsReserved]) (opcode_eq_ofNat h)
  case h_13 h => exact .reserved (by simp [rowsReserved]) (opcode_eq_ofNat h)
  case h_14 h => exact .reserved (by simp [rowsReserved]) (opcode_eq_ofNat h)
  case h_15 h => exact .reserved (by simp [rowsReserved]) (opcode_eq_ofNat h)
  case h_16 =>
    simp only [imp_false] at *
    have bound := (field w 28 4).isLt
    have last : (field w 28 4).toNat = 15 := by omega
    exact .reserved (by simp [rowsReserved]) (opcode_eq_ofNat last)

/-! ## When the word of a format is a command -/

variable {w : Word} {i j : Instr}

theorem decodeF0_eq_ok : decodeF0 w i = .ok j ↔ field w 0 28 = 0#28 ∧ i = j := by
  unfold decodeF0
  split <;> simp [*]

theorem decodeFB_eq_ok : decodeFB w = .ok j ↔ field w 8 20 = 0#20 ∧ .feed (field w 0 8) = j := by
  unfold decodeFB
  split <;> simp [*]

theorem decodeFC_eq_ok :
    decodeFC w = .ok j ↔ field w 3 25 = 0#25 ∧ .setcfg (flag w 2) (flag w 1) (flag w 0) = j := by
  unfold decodeFC
  split <;> simp [*]

theorem decodeFT_eq_ok :
    decodeFT w = .ok j ↔ field w 25 3 = 0#3 ∧ .build (flag w 24) (field w 16 8) (field w 8 8) (field w 0 8) = j := by
  unfold decodeFT
  split <;> simp [*]

/-- Of the two conditions on the fields, `wf` is the stronger. -/
theorem decodeFI_eq_ok :
    decodeFI w = .ok j ↔ ((field w 25 3 = 0#3 ∧ flag w 11 = false ∧ flag w 7 = false) ∧ (intentWord w).wf = true)
      ∧ .setint (intentWord w) = j := by
  unfold decodeFI
  split
  case isTrue reserved =>
    simp only [reduceCtorEq, false_iff]
    rintro ⟨⟨⟨high, bit11, bit7⟩, -⟩, -⟩
    simp [high, bit11, bit7] at reserved
  case isFalse reserved =>
    have zero : field w 25 3 = 0#3 ∧ flag w 11 = false ∧ flag w 7 = false := by simpa using reserved
    by_cases hwf : (intentWord w).wf = true
    · simp [zero, hwf, modeOk_of_wf hwf]
    · split <;> simp [hwf]

/-! ## The fields put together are the word -/

theorem opcode_append_rest (w : Word) : field w 28 4 ++ field w 0 28 = w := by
  rw [field_append_field w 0 4 28]
  exact field_all w

theorem encode_feed_field (hop : field w 28 4 = 0x1#4) (reserved : field w 8 20 = 0#20) :
    encode (.feed (field w 0 8)) = w := by
  have whole : field w 28 4 ++ field w 8 20 ++ field w 0 8 = w := by
    rw [field_append_field w 8 4 20, field_append_field w 0 24 8]
    exact field_all w
  rwa [hop, reserved] at whole

theorem encode_setcfg_flags (hop : field w 28 4 = 0x4#4) (reserved : field w 3 25 = 0#25) :
    encode (.setcfg (flag w 2) (flag w 1) (flag w 0)) = w := by
  have whole : field w 28 4 ++ field w 3 25 ++ field w 2 1 ++ field w 1 1 ++ field w 0 1 = w := by
    rw [field_append_field w 3 4 25, field_append_field w 2 29 1, field_append_field w 1 30 1,
      field_append_field w 0 31 1]
    exact field_all w
  rwa [hop, reserved, field_one, field_one, field_one] at whole

theorem encode_build_fields (hop : field w 28 4 = 0x9#4) (reserved : field w 25 3 = 0#3) :
    encode (.build (flag w 24) (field w 16 8) (field w 8 8) (field w 0 8)) = w := by
  have whole : field w 28 4 ++ field w 25 3 ++ field w 24 1 ++ field w 16 8 ++ field w 8 8 ++ field w 0 8 = w := by
    rw [field_append_field w 25 4 3, field_append_field w 24 7 1, field_append_field w 16 8 8,
      field_append_field w 8 16 8, field_append_field w 0 24 8]
    exact field_all w
  rwa [hop, reserved, field_one] at whole

theorem encode_setint_intentWord (hop : field w 28 4 = 0x5#4) (high : field w 25 3 = 0#3) (bit11 : flag w 11 = false)
    (bit7 : flag w 7 = false) : encode (.setint (intentWord w)) = w := by
  have whole : field w 28 4 ++ field w 25 3 ++ field w 24 1 ++ field w 21 3 ++ field w 20 1 ++ field w 12 8
      ++ field w 11 1 ++ field w 10 1 ++ field w 8 2 ++ field w 7 1 ++ field w 6 1 ++ field w 4 2 ++ field w 3 1
      ++ field w 0 3 = w := by
    rw [field_append_field w 25 4 3, field_append_field w 24 7 1, field_append_field w 21 8 3,
      field_append_field w 20 11 1, field_append_field w 12 12 8, field_append_field w 11 20 1,
      field_append_field w 10 21 1, field_append_field w 8 22 2, field_append_field w 7 24 1,
      field_append_field w 6 25 1, field_append_field w 4 26 2, field_append_field w 3 28 1,
      field_append_field w 0 29 3]
    exact field_all w
  simp only [hop, high, field_one, bit11, bit7] at whole
  exact whole

/-- A word that decodes is the word of its command. -/
theorem encode_of_decode (h : decode w = .ok i) : encode i = w ∧ WellFormed i = true := by
  have hformat := decode_format w
  generalize decode w = r at h hformat
  cases hformat with
  | f0 row hop =>
    obtain ⟨rest, rfl⟩ := decodeF0_eq_ok.1 h
    refine ⟨?_, rowsF0_wellFormed row⟩
    rw [rowsF0_encode row, encodeF0, ← hop, ← rest, opcode_append_rest]
  | fb hop =>
    obtain ⟨rest, rfl⟩ := decodeFB_eq_ok.1 h
    exact ⟨encode_feed_field hop rest, rfl⟩
  | fc hop =>
    obtain ⟨rest, rfl⟩ := decodeFC_eq_ok.1 h
    exact ⟨encode_setcfg_flags hop rest, rfl⟩
  | fi hop =>
    obtain ⟨⟨⟨high, bit11, bit7⟩, hwf⟩, rfl⟩ := decodeFI_eq_ok.1 h
    exact ⟨encode_setint_intentWord hop high bit11 bit7, hwf⟩
  | ft hop =>
    obtain ⟨rest, rfl⟩ := decodeFT_eq_ok.1 h
    exact ⟨encode_build_fields hop rest, rfl⟩
  | reserved row hop =>
    obtain rfl := Except.ok.inj h
    obtain ⟨hencode, hwf⟩ := rowsReserved_encode row (field w 0 28)
    refine ⟨?_, hwf⟩
    rw [hencode, ← hop, opcode_append_rest]

/-! ## The two directions -/

/-- Settles O48: `decode_encode`, which reads each command back in the format it was encoded in. -/
theorem decodeOfEncodeIsTheCommand : Obligations.DecodeOfEncodeIsTheCommand :=
  fun _ hi => decode_encode hi

/-- Settles O49: in each format the opcode, the zeros of the reserved bits and the fields make up the word. -/
theorem encodeOfDecodeIsTheWord : Obligations.EncodeOfDecodeIsTheWord :=
  fun _ _ h => encode_of_decode h

/-- Settles O51: each of the six words is the encoding of its command. -/
theorem sampleWordsDecode : Obligations.SampleWordsDecode :=
  ⟨decode_encode (i := .feed 0xFF#8) rfl, decode_encode (i := .tick) rfl,
    decode_encode (i := .setcfg false true true) rfl,
    decode_encode (i := .setint ⟨false, 0#3, true, 22#8, false, 0#2, false, 0#2, true, 2#3⟩) rfl,
    decode_encode (i := .decode) rfl, decode_encode (i := .build true 0x01#8 0x60#8 0x01#8) rfl⟩

/-! ## The ILLEGAL words -/

/-- Conditions (a) to (d) of 30_encoding.md R89, on the fields of a word. -/
def IllegalWord (w : Word) : Prop :=
  0xB#4 ≤ field w 28 4
  ∨ (field w 28 4 ∈ [0x0#4, 0x2#4, 0x3#4, 0x6#4, 0x7#4, 0x8#4, 0xA#4] ∧ field w 0 28 ≠ 0#28)
  ∨ (field w 28 4 = 0x1#4 ∧ field w 8 20 ≠ 0#20) ∨ (field w 28 4 = 0x4#4 ∧ field w 3 25 ≠ 0#25)
  ∨ (field w 28 4 = 0x9#4 ∧ field w 25 3 ≠ 0#3)
  ∨ (field w 28 4 = 0x5#4 ∧ (field w 25 3 ≠ 0#3 ∨ flag w 11 ≠ false ∨ flag w 7 ≠ false ∨ (intentWord w).wf = false))

theorem illegalWord_of_rowsF0 {op : BitVec 4} (row : (op, i) ∈ rowsF0) (hop : field w 28 4 = op) :
    IllegalWord w ↔ field w 0 28 ≠ 0#28 := by
  obtain ⟨rfl, -⟩ | ⟨rfl, -⟩ | ⟨rfl, -⟩ | ⟨rfl, -⟩ | ⟨rfl, -⟩ | ⟨rfl, -⟩ | ⟨rfl, -⟩ := rowsF0_cases row <;>
    simp [IllegalWord, hop]

/-- R89 (c), and R89 (d) for each field of an intent. -/
theorem IntentWord.wf_eq_false_iff (w : IntentWord) :
    w.wf = false ↔ (w.mp = true ∧ 6 ≤ w.mv.toNat) ∨ (w.mp = false ∧ w.mv ≠ 0#3) ∨ (w.fp = false ∧ w.fv ≠ 0#2)
      ∨ (w.sp = false ∧ w.sv ≠ 0#2) ∨ (w.tp = false ∧ w.tv ≠ 0#8) ∨ (w.pp = false ∧ w.pv ≠ 0#3) := by
  simp only [wf, modeOk, absentIsZero, Bool.and_eq_false_iff, Bool.or_eq_false_iff, Bool.not_eq_false',
    decide_eq_false_iff_not, beq_eq_false_iff_ne, not_lt, or_assoc]

/-- In a format with one unreserved command `c`, read when `P` holds, no command is read exactly when `P` fails. -/
theorem forall_ok_isReserved_iff {r : Except Illegal Instr} {P : Prop} {c : Instr} (hr : ∀ {j}, r = .ok j ↔ P ∧ c = j)
    (hc : ¬ IsReserved c) : (∀ j, r = .ok j → IsReserved j) ↔ ¬ P :=
  ⟨fun h hP => hc (h c (hr.2 ⟨hP, rfl⟩)), fun hP _ hj => absurd (hr.1 hj).1 hP⟩

/-- A word is ILLEGAL exactly when it is no command, or a command of a reserved opcode. -/
theorem illegalWord_iff (w : Word) : IllegalWord w ↔ ∀ i, decode w = .ok i → IsReserved i := by
  have hformat := decode_format w
  generalize decode w = r at hformat
  cases hformat with
  | f0 row hop =>
    rw [forall_ok_isReserved_iff decodeF0_eq_ok (rowsF0_not_isReserved row), illegalWord_of_rowsF0 row hop]
  | fb hop =>
    rw [forall_ok_isReserved_iff decodeFB_eq_ok (by simp [IsReserved])]
    simp [IllegalWord, hop]
  | fc hop =>
    rw [forall_ok_isReserved_iff decodeFC_eq_ok (by simp [IsReserved])]
    simp [IllegalWord, hop]
  | fi hop =>
    rw [forall_ok_isReserved_iff decodeFI_eq_ok (by simp [IsReserved])]
    simp [IllegalWord, hop, -not_and, not_and_or, or_assoc]
  | ft hop =>
    rw [forall_ok_isReserved_iff decodeFT_eq_ok (by simp [IsReserved])]
    simp [IllegalWord, hop]
  | reserved row hop => simp [IllegalWord, hop, isReserved_of_rowsReserved row, rowsReserved_opcode row]

/-! ## Shifts and masks -/

theorem toNat_shift_and_mask (w : Word) (lo : Nat) {n : Nat} (hn : n ≤ 32) :
    ((w >>> lo) &&& BitVec.ofNat 32 (2 ^ n - 1)).toNat = (field w lo n).toNat := by
  rw [shift_and_mask, BitVec.toNat_setWidth_of_le hn]

/-- Above the opcode there is nothing to mask. -/
theorem toNat_shift_opcode (w : Word) : (w >>> 28).toNat = (field w 28 4).toNat := by
  have hlt : w.toNat >>> 28 < 2 ^ 4 := by
    rw [Nat.shiftRight_eq_div_pow]
    omega
  rw [field, BitVec.extractLsb'_toNat, BitVec.toNat_ushiftRight, Nat.mod_eq_of_lt hlt]

/-- A word with the value of a field is a number exactly when the field is that number in its own width. -/
theorem eq_ofNat_iff_of_toNat {n k : Nat} {v : Word} {x : BitVec n} (h : v.toNat = x.toNat) (hk : k < 2 ^ n)
    (hn : n ≤ 32) : v = BitVec.ofNat 32 k ↔ x = BitVec.ofNat n k := by
  have hk32 : k < 2 ^ 32 := hk.trans_le (Nat.pow_le_pow_right (by decide) hn)
  rw [← BitVec.toNat_inj, ← BitVec.toNat_inj, h, BitVec.toNat_ofNat, BitVec.toNat_ofNat, Nat.mod_eq_of_lt hk,
    Nat.mod_eq_of_lt hk32]

theorem flag_eq_true_iff (w : Word) (i : Nat) : flag w i = true ↔ field w i 1 = 1#1 := by
  rw [field_one]
  cases flag w i <;> decide

theorem flag_eq_false_iff (w : Word) (i : Nat) : flag w i = false ↔ field w i 1 = 0#1 := by
  rw [field_one]
  cases flag w i <;> decide

end Sys2Proof

namespace Sys2Proof.Machine

/-- A command of a reserved opcode writes EVT only (43_framer_control.md R217, R218). -/
theorem exec_of_isReserved {i : Instr} (h : IsReserved i) (s : State) : exec i s = .next { s with evt := 0x14#8 } := by
  obtain ⟨x, hx⟩ := h
  simp only [List.mem_cons, List.not_mem_nil, or_false] at hx
  obtain rfl | rfl | rfl | rfl | rfl := hx <;> rfl

/-- Settles O50: the masks of the statement are the fields of `IllegalWord`, so `illegalWord_iff` says what the word
decodes to. -/
theorem illegalWordsAreExactlyThose : Obligations.IllegalWordsAreExactlyThose := by
  intro w s op bits illegalWord
  have hop {k : Nat} (hk : k < 2 ^ 4) : op = BitVec.ofNat 32 k ↔ field w 28 4 = BitVec.ofNat 4 k :=
    eq_ofNat_iff_of_toNat (toNat_shift_opcode w) hk (by decide)
  have hbits {hi lo k : Nat} (hn : hi + 1 - lo ≤ 32) (hk : k < 2 ^ (hi + 1 - lo)) :
      bits hi lo = BitVec.ofNat 32 k ↔ field w lo (hi + 1 - lo) = BitVec.ofNat (hi + 1 - lo) k :=
    eq_ofNat_iff_of_toNat (toNat_shift_and_mask w lo hn) hk hn
  have hreserved : 0xB#32 ≤ op ↔ 0xB#4 ≤ field w 28 4 := by
    rw [BitVec.le_def, toNat_shift_opcode]
    rfl
  have hmode : 6#32 ≤ bits 2 0 ↔ 6 ≤ (field w 0 3).toNat := by
    rw [BitVec.le_def, toNat_shift_and_mask w 0 (by decide)]
    rfl
  have key : illegalWord ↔ IllegalWord w := by
    simp (disch := decide) only [illegalWord, IllegalWord, hreserved, hmode, hop, hbits,
      IntentWord.wf_eq_false_iff, flag_eq_true_iff, flag_eq_false_iff, intentWord, List.mem_cons, List.not_mem_nil,
      ne_eq]
  refine ⟨fun h => ?illegal, fun h => ?command⟩
  case illegal =>
    cases hdec : decode w with
    | error e => exact stepWord_of_decode_error hdec s
    | ok i => rw [stepWord_of_decode hdec, exec_of_isReserved ((illegalWord_iff w).1 (key.1 h) i hdec)]
  case command =>
    rw [key, illegalWord_iff, Classical.not_forall] at h
    obtain ⟨i, hi⟩ := h
    obtain ⟨hdec, hres⟩ := Classical.not_imp.1 hi
    exact ⟨i, hdec, (encode_of_decode hdec).2, not_exists.1 hres⟩

end Sys2Proof.Machine
end

section
/-! PROOFS. What one FEED, TICK or HUNT does in each control state of the reader (40_frame_reader.md R121 to R134):
the outcome is named by its constructor of `FeedStep`, and the invariant gives the room in RX that the constructor asks
for. -/

namespace Sys2Proof.Machine

/-! ## Room in RX -/

/-- RX has cells for the checksum and both CRC bytes of a frame whose length is accepted (20_memory.md R60). -/
theorem add_two_lt_bufSize {c : Config} {n : Byte} (hc : c.Wf) (h : lengthOk c n = true) : n.toNat + 2 < c.bufSize := by
  have hroom := lengthOk_room hc h
  unfold Config.bufSize
  omega

theorem FscInv.room_of_body {s : State} (h : FscInv s) {i : Nat} (hr : s.rstate = .body i) :
    s.rxn.toNat < s.config.bufSize :=
  (Nat.le_add_right _ 2).trans_lt (add_two_lt_bufSize h.config (h.lengthOk_of_body hr))

theorem FscInv.room_of_crcb {s : State} (h : FscInv s) {k : Fin 2} (hr : s.rstate = .crcb k) :
    s.rxn.toNat + 2 < s.config.bufSize :=
  add_two_lt_bufSize h.config (h.crcbLen k hr)

/-! ## FEED in header search -/

theorem val_nextMark (m : Fin 3) : (nextMark m).val = min (m.val + 1) 2 := by
  revert m; decide

/-- Settles O6: `nextMark` is the saturating count. -/
theorem feedOfAMarkerIsCounted : Obligations.FeedOfAMarkerIsCounted := fun _ m hr =>
  ⟨nextMark m, val_nextMark m, execFeed_of_feedStep (.marker m hr rfl)⟩

/-- Settles O7: the case `garbage` of FEED. -/
theorem feedOfGarbageRestartsTheCount : Obligations.FeedOfGarbageRestartsTheCount := fun _ m _ hr hm hb =>
  execFeed_of_feedStep (.garbage m hr hb hm)

/-- Settles O8: the range of the statement is `lengthOk`, which chooses between the cases `length` and `badLength`. -/
theorem feedTakesTheLengthByte : Obligations.FeedTakesTheLengthByte := by
  intro s b hr hb
  refine ⟨fun hl => ?accepted, fun hl => ?rejected⟩
  case accepted =>
    exact execFeed_of_feedStep (.length 2 hr hb (by decide) (lengthOk_iff.2 hl) (Nat.succ_pos _))
  case rejected =>
    have hbad : lengthOk s.config b = false := Bool.eq_false_iff.2 (mt lengthOk_iff.1 hl)
    exact execFeed_of_feedStep (.badLength 2 hr hb (by decide) hbad)

/-! ## FEED in a frame -/

/-- Settles O9: the case `body` of FEED. -/
theorem feedStoresAFrameByte : Obligations.FeedStoresAFrameByte := fun _ i _ h hr hi =>
  execFeed_of_feedStep (.body i hr hi (hi.trans (h.room_of_body hr)))

/-- Settles O10: the invariant says what SUM is, and the comparison and CRC_L choose among the three cases of FEED at
the checksum byte. -/
theorem feedComparesTheChecksum : Obligations.FeedComparesTheChecksum := by
  intro s b h hr
  have hroom := h.room_of_body hr
  obtain ⟨body, hread, -, hsum⟩ := h.body _ hr
  exact ⟨⟨body, hread, hsum⟩, h.rxValid_of_inFrame (inFrame_of_body hr),
    fun hb => execFeed_of_feedStep (.badChecksum hr hroom hb),
    fun hb hcrc => execFeed_of_feedStep (.checksumThenCrc hr hroom hb hcrc),
    fun hb hcrc => execFeed_of_feedStep (.checksum hr hroom hb hcrc)⟩

/-- Settles O11: the case `crcHigh` of FEED. -/
theorem feedStoresTheHighCrcByte : Obligations.FeedStoresTheHighCrcByte := fun _ _ h hr =>
  execFeed_of_feedStep (.crcHigh hr (by have := h.room_of_crcb hr; omega))

/-- While the low CRC byte is awaited, RX holds the high one and the bytes the CRC covers (R127). -/
theorem CrcbOk.high_and_body {s : State} (h : CrcbOk 1 s) :
    ∃ hi body, s.rx.read (s.rxn.toNat + 1) = some hi ∧ s.rx.readAll 0 s.rxn.toNat = some body := by
  obtain ⟨bs, hread, -, -⟩ := h
  have hlen : bs.length = s.rxn.toNat + 2 := Memory.readAll_length hread
  have hhigh := Memory.read_of_readAll hread (j := s.rxn.toNat + 1) (by simp)
  rw [Nat.zero_add, List.getElem?_eq_getElem (by omega)] at hhigh
  exact ⟨_, _, hhigh, Memory.readAll_take hread (by omega)⟩

/-- Settles O12: the comparison chooses between the cases `crcMatch` and `crcMismatch` of FEED. -/
theorem feedComparesTheCrc : Obligations.FeedComparesTheCrc := by
  intro s b h hr
  have hroom := h.room_of_crcb hr
  obtain ⟨hi, body, hhigh, hbody⟩ := (h.crcb 1 hr).high_and_body
  exact ⟨hi, body, hhigh, hbody,
    fun hcrc => execFeed_of_feedStep (.crcMatch hi body hr hroom hhigh hbody hcrc),
    fun hcrc => execFeed_of_feedStep (.crcMismatch hi body hr hroom hhigh hbody hcrc)⟩

/-! ## What FEED leaves unchanged -/

/-- A cell of RX that FEED changed is the one RSTATE names, or in header search cell 0 with an accepted length byte
(20_memory.md R61). -/
theorem FeedStep.changed_cell {b : Byte} {s t : State} (h : FeedStep b s t) {j : Nat}
    (hj : t.rx.read j ≠ s.rx.read j) :
    (∃ m, s.rstate = .hunt m ∧ (m.val = 2 ∧ b ≠ 0xFF#8 ∧ lengthOk s.config b = true) ∧ j = 0)
    ∨ s.rstate = .body j ∨ ∃ k, s.rstate = .crcb k ∧ j = s.rxn.toNat + 1 + k.val := by
  have written {i : Nat} (hi : (s.rx.write i b).read j ≠ s.rx.read j) : j = i := by
    by_contra hne
    exact hi (Memory.read_write_of_ne _ _ hne)
  cases h with
  | marker => exact absurd rfl hj
  | garbage => exact absurd rfl hj
  | badLength => exact absurd rfl hj
  | length m hr hb hm hl => exact .inl ⟨m, hr, ⟨by omega, hb, hl⟩, written hj⟩
  | body i hr => exact .inr (.inl (written hj ▸ hr))
  | badChecksum hr => exact .inr (.inl (written hj ▸ hr))
  | checksumThenCrc hr => exact .inr (.inl (written hj ▸ hr))
  | checksum hr => exact .inr (.inl (written hj ▸ hr))
  | crcHigh hr => exact .inr (.inr ⟨0, hr, written hj⟩)
  | crcMatch _ _ hr => exact .inr (.inr ⟨1, hr, written hj⟩)
  | crcMismatch _ _ hr => exact .inr (.inr ⟨1, hr, written hj⟩)

/-- Settles O13: each outcome of FEED writes fields of the reader and EVT, and `FeedStep.changed_cell` says which cell
of RX. -/
theorem feedWritesOnlyTheReader : Obligations.FeedWritesOnlyTheReader := by
  intro s t b h
  have hcell {j : Nat} := (execFeed_next h).changed_cell (j := j)
  refine ⟨?fields, fun m hr _ _ _ j hj => ?length, fun m hr hm j => ?hunt, fun i hr j hj => ?body,
    fun k hr j hj => ?crcb⟩
  case fields => cases execFeed_next h <;> rfl
  case length => by_contra hne; simpa [hr, hj] using hcell hne
  case hunt =>
    by_contra hne
    have hzero : (m.val = 2 ∧ b ≠ 0xFF#8 ∧ lengthOk s.config b = true) ∧ j = 0 := by
      simpa [hr] using hcell hne
    exact hm hzero.1
  case body => by_contra hne; simpa [hr, hj.symm] using hcell hne
  case crcb => by_contra hne; simpa [hr, hj] using hcell hne

/-- Settles O17: what another command writes, by `Writes`, is no field of the reader. -/
theorem onlyReaderCommandsMoveTheReader : Obligations.OnlyReaderCommandsMoveTheReader := by
  intro i s t hfeed htick hhunt hreset h
  cases exec_writes h with
  | feed b => exact absurd rfl (hfeed b)
  | tick => exact absurd rfl htick
  | hunt => exact absurd rfl hhunt
  | reset => exact absurd rfl hreset
  | event => simp
  | setcfg => simp
  | setint => simp
  | clrint => simp
  | decode => simp
  | encode => simp
  | build => simp

/-! ## TICK and HUNT -/

theorem exec_tick_of_hunt_zero {s : State} (hr : s.rstate = .hunt 0) :
    exec .tick s = .next { s with evt := 0x00#8 } := by
  simp [exec, execTick, hr, emit, Event.code]

theorem exec_tick_times_out {s : State} (hr : s.rstate ≠ .hunt 0) (hi : s.config.intraTimeout ≤ s.idle + 1) :
    exec .tick s = .next { s with rstate := .hunt 0, idle := 0, evt := 0x06#8 } := by
  simp [exec, execTick, tickPartial, hr, hi, emit, Event.code]

theorem exec_tick_counts {s : State} (hr : s.rstate ≠ .hunt 0) (hi : s.idle + 1 < s.config.intraTimeout) :
    exec .tick s = .next { s with idle := s.idle + 1, evt := 0x00#8 } := by
  simp [exec, execTick, tickPartial, hr, hi, emit, Event.code]

/-- Settles O14: the three cases of TICK. -/
theorem tickCountsOrTimesOut : Obligations.TickCountsOrTimesOut := fun _ =>
  ⟨exec_tick_of_hunt_zero, exec_tick_times_out, exec_tick_counts⟩

/-- TICKs that bring IDLE up to INTRA_TIMEOUT: all but the last count, and the last times out. -/
theorem runs_ticks_times_out (n : Nat) {s : State} (hr : s.rstate ≠ .hunt 0)
    (hn : s.idle + n + 1 = s.config.intraTimeout) :
    runs (ticks (n + 1)) s =
      some (List.replicate n 0x00#8 ++ [0x06#8], { s with rstate := .hunt 0, idle := 0, evt := 0x06#8 }) := by
  induction n generalizing s with
  | zero => exact runs_cons (exec_tick_times_out hr hn.ge)
  | succ n ih =>
    have hcounts := exec_tick_counts hr (by omega)
    have hrest := ih (s := { s with idle := s.idle + 1, evt := 0x00#8 }) hr (by simp only; omega)
    rw [ticks] at hrest
    rw [ticks, List.replicate_succ, runs_cons hcounts, hrest]
    rfl

/-- Settles O15: IDLE starts at 0. -/
theorem silenceOfIntraTimeoutTicksTimesOut : Obligations.SilenceOfIntraTimeoutTicksTimesOut := by
  intro s hpos hr hidle
  obtain ⟨n, hn⟩ := Nat.exists_eq_add_of_le' hpos
  rw [hn]
  exact runs_ticks_times_out n hr (by omega)

/-- Settles O16: the equation is the meaning of HUNT. -/
theorem huntRestartsHeaderSearch : Obligations.HuntRestartsHeaderSearch := fun _ => rfl

end Sys2Proof.Machine
end

section
/-! PROOFS. Runs of FEED: markers, and a frame byte by byte (40_frame_reader.md R129). The state after each part of a
frame is given outright, so a run is put together from its parts. -/

namespace Sys2Proof.Machine

/-! ## Runs of FEED -/

/-- FEEDS of one byte. -/
theorem FeedStep.runs_feeds {b : Byte} {s t : State} (h : FeedStep b s t) : runs (feeds [b]) s = some ([t.evt], t) :=
  runs_cons (i := .feed b) (is := []) (execFeed_of_feedStep h)

/-- FEEDS in two parts. -/
theorem runs_feeds_append {a b : List Byte} {s t u : State} {es fs : List Byte} (ha : runs (feeds a) s = some (es, t))
    (hb : runs (feeds b) t = some (fs, u)) : runs (feeds (a ++ b)) s = some (es ++ fs, u) := by
  have hsplit : feeds (a ++ b) = feeds a ++ feeds b := List.map_append
  rw [hsplit, runs_append _ _ ha, hb]
  rfl

/-- FEEDS and one byte more. -/
theorem runs_feeds_snoc {bs : List Byte} {b : Byte} {s t u : State} {es : List Byte}
    (h : runs (feeds bs) s = some (es, t)) (hb : FeedStep b t u) :
    runs (feeds (bs ++ [b])) s = some (es ++ [u.evt], u) :=
  runs_feeds_append h hb.runs_feeds

/-! ## Markers -/

theorem nextMark_nextMark (m : Fin 3) : nextMark (nextMark m) = 2 := by
  revert m; decide

/-- From any header search state two or more markers lead to HUNT(2) (40_frame_reader.md R122). -/
theorem runs_feeds_markers (k : Nat) {s : State} {m : Fin 3} (hr : s.rstate = .hunt m) :
    runs (feeds (List.replicate (k + 2) 0xFF#8)) s =
      some (List.replicate (k + 2) 0x01#8, { s with rstate := .hunt 2, idle := 0, evt := 0x01#8 }) := by
  induction k with
  | zero =>
    rw [← nextMark_nextMark m]
    exact runs_feeds_snoc (FeedStep.marker m hr rfl).runs_feeds (.marker (nextMark m) rfl rfl)
  | succ k ih =>
    rw [List.replicate_succ', List.replicate_succ' (a := 0x01#8)]
    exact runs_feeds_snoc ih (.marker 2 rfl rfl)

/-- Settles O21: the markers lead to HUNT(2), where the byte is a rejected length. -/
theorem markersAndABadLengthResynchronize : Obligations.MarkersAndABadLengthResynchronize := by
  intro s k b ⟨m, hr⟩ hb hl
  exact runs_feeds_snoc (runs_feeds_markers k hr) (.badLength 2 rfl hb (by decide) hl)

/-! ## The states of the reader along a frame -/

theorem Memory.writeAll_snoc (m : Memory) (i : Nat) (bs : List Byte) (b : Byte) :
    m.writeAll i (bs ++ [b]) = (m.writeAll i bs).write (i + bs.length) b := by
  induction bs generalizing m i with
  | nil => rfl
  | cons a bs ih =>
    rw [List.cons_append, Memory.writeAll, Memory.writeAll, ih, List.length_cons, Nat.add_assoc, Nat.add_comm 1]

/-- In the state `s` the length byte `n` was accepted, and the frame bytes `f` have come since, `n` included; `r` is the
control state then (40_frame_reader.md R124 to R127). -/
def receiving (n : Byte) (f : List Byte) (r : RState) (s : State) : State :=
  { s with
    rxn := n, rx := s.rx.writeAll 0 f, sum := cksum (f.take n.toNat), crcL := s.crcEn, rxValid := false,
    rxCrc := false, rstate := r, idle := 0, evt := 0x01#8 }

/-- The frame `f`, received from the state `s`, was dropped with the event of code `e` (R126, R128). -/
def dropped (n : Byte) (f : List Byte) (e : Byte) (s : State) : State :=
  { receiving n f (.hunt 0) s with evt := e }

/-- The frame `f`, received from the state `s`, was delivered (40_frame_reader.md R126, R128). -/
def delivered (n : Byte) (f : List Byte) (s : State) : State :=
  { receiving n f (.hunt 0) s with rxValid := true, rxCrc := s.crcEn, evt := 0x02#8 }

@[simp] theorem receiving_evt (n : Byte) (f : List Byte) (r : RState) (s : State) :
    (receiving n f r s).evt = 0x01#8 := rfl
@[simp] theorem dropped_evt (n : Byte) (f : List Byte) (e : Byte) (s : State) : (dropped n f e s).evt = e := rfl
@[simp] theorem delivered_evt (n : Byte) (f : List Byte) (s : State) : (delivered n f s).evt = 0x02#8 := rfl

/-- A delivered frame is the one the host reads (10_state.md R29). -/
theorem rxFrame_delivered {n : Byte} {f : List Byte} {s : State}
    (hlen : f.length = n.toNat + 1 + if s.crcEn then 2 else 0) : (delivered n f s).rxFrame = some f := by
  have hread := Memory.readAll_writeAll s.rx 0 f
  rw [hlen] at hread
  exact hread

/-- A byte after the frame bytes that SUM covers is stored after them. -/
theorem receiving_snoc {n : Byte} {f : List Byte} {i : Nat} (hf : f.length = i) (hi : n.toNat ≤ i) (b : Byte)
    (r r' : RState) (s : State) :
    receiving n (f ++ [b]) r' s =
      { receiving n f r s with rx := (receiving n f r s).rx.write i b, rstate := r' } := by
  subst hf
  simp [receiving, Memory.writeAll_snoc, List.take_append_of_le_length hi]

section
variable {s : State} {n : Byte} {f : List Byte} (hroom : n.toNat + 2 < s.config.bufSize)
include hroom

theorem feedStep_receiving_body (hf : f.length < n.toNat) (b : Byte) :
    FeedStep b (receiving n f (.body f.length) s) (receiving n (f ++ [b]) (.body (f ++ [b]).length) s) := by
  have hstep : FeedStep b (receiving n f (.body f.length) s) _ :=
    .body f.length rfl hf (show f.length < s.config.bufSize by omega)
  simpa [receiving, Memory.writeAll_snoc, List.take_of_length_le hf.le,
    List.take_of_length_le (show (f ++ [b]).length ≤ n.toNat by simpa using hf)] using hstep

theorem feedStep_receiving_badChecksum (hf : f.length = n.toNat) {b : Byte} (hb : b ≠ cksum f) :
    FeedStep b (receiving n f (.body n.toNat) s) (dropped n (f ++ [b]) 0x04#8 s) := by
  rw [dropped, receiving_snoc hf le_rfl]
  refine .badChecksum rfl (show n.toNat < s.config.bufSize by omega) ?_
  simpa [receiving, ← hf] using hb

theorem feedStep_receiving_checksumThenCrc (hf : f.length = n.toNat) (hcrc : s.crcEn = true) :
    FeedStep (cksum f) (receiving n f (.body n.toNat) s) (receiving n (f ++ [cksum f]) (.crcb 0) s) := by
  rw [receiving_snoc hf le_rfl]
  refine .checksumThenCrc rfl (show n.toNat < s.config.bufSize by omega) ?_ hcrc
  simp [receiving, ← hf]

theorem feedStep_receiving_checksum (hf : f.length = n.toNat) (hcrc : s.crcEn = false) :
    FeedStep (cksum f) (receiving n f (.body n.toNat) s) (delivered n (f ++ [cksum f]) s) := by
  rw [delivered, receiving_snoc hf le_rfl, hcrc]
  refine .checksum rfl (show n.toNat < s.config.bufSize by omega) ?_ hcrc
  simp [receiving, ← hf]

theorem feedStep_receiving_crcHigh (hf : f.length = n.toNat + 1) (b : Byte) :
    FeedStep b (receiving n f (.crcb 0) s) (receiving n (f ++ [b]) (.crcb 1) s) := by
  rw [receiving_snoc hf (by omega)]
  exact .crcHigh rfl (show n.toNat + 1 < s.config.bufSize by omega)

theorem feedStep_receiving_crcMatch {body : List Byte} (hbody : f.take n.toNat = body) (hf : f.length = n.toNat + 2)
    (hcrc : s.crcEn = true) (hhigh : f[n.toNat + 1]? = some (crcHigh (crc16 body))) :
    FeedStep (crcLow (crc16 body)) (receiving n f (.crcb 1) s) (delivered n (f ++ [crcLow (crc16 body)]) s) := by
  have hread : (s.rx.writeAll 0 f).readAll 0 (n.toNat + 2) = some f := hf ▸ Memory.readAll_writeAll s.rx 0 f
  have hread_high : (s.rx.writeAll 0 f).read (n.toNat + 1) = some (crcHigh (crc16 body)) := by
    rw [← hhigh, ← Memory.read_of_readAll hread (Nat.lt_succ_self _), Nat.zero_add]
  have hread_body : (s.rx.writeAll 0 f).readAll 0 n.toNat = some body := by
    rw [← hbody]
    exact Memory.readAll_take hread (Nat.le_add_right _ 2)
  rw [delivered, receiving_snoc hf (Nat.le_add_right _ 2), hcrc]
  exact .crcMatch _ body rfl hroom hread_high hread_body (crcHigh_append_crcLow _)

end

/-! ## Whole frames -/

/-- An accepted frame is its body with the checksum and, with the option, the CRC after it (30_encoding.md R93). -/
theorem frameOf_of_accepts {c : Config} {crc : Bool} {n : Byte} {rest : List Byte}
    (h : accepts c crc (n :: rest) = true) :
    lengthOk c n = true ∧ ∃ bs, bs.length + 1 = n.toNat ∧ n :: rest = frameOf crc (n :: bs) := by
  obtain ⟨hl, hlen, hsum, hcrc⟩ := (accepts_iff (n := n) rfl).1 h
  obtain ⟨k, hk⟩ : ∃ k, n.toNat = k + 1 := Nat.exists_eq_add_of_le' (le_trans (by decide) (lengthOk_iff.1 hl).1)
  refine ⟨hl, rest.take k, ?_, ?_⟩
  · rw [List.length_cons] at hlen
    rw [List.length_take, hk, min_eq_left (by omega)]
  · have hbody : (n :: rest).take n.toNat = n :: rest.take k := by rw [hk, List.take_succ_cons]
    rw [hbody] at hsum hcrc
    rw [← List.take_append_drop n.toNat (n :: rest), hbody, frameOf, List.append_assoc, List.append_cancel_left_eq,
      List.drop_eq_getElem?_toList_append, hsum]
    cases crc with
    | false => simpa using hlen.le
    | true =>
      obtain ⟨hhigh, hlow⟩ := hcrc rfl
      rw [List.drop_eq_getElem?_toList_append, hhigh, List.drop_eq_getElem?_toList_append, hlow,
        List.drop_eq_nil_of_le (by simpa using hlen.le)]
      rfl

section
variable {s : State} {n : Byte} (hr : s.rstate = .hunt 2) (hn : n ≠ 0xFF#8) (hc : s.config.Wf)
  (hl : lengthOk s.config n = true)
include hr hn hc hl

/-- The frame bytes that the checksum covers each give INCOMPLETE. -/
theorem runs_feeds_body {bs : List Byte} (hbs : bs.length < n.toNat) :
    runs (feeds (n :: bs)) s =
      some (List.replicate (bs.length + 1) 0x01#8, receiving n (n :: bs) (.body (bs.length + 1)) s) := by
  induction bs using List.reverseRecOn with
  | nil =>
    have htake : [n].take n.toNat = [n] := List.take_of_length_le hbs
    have hlength : FeedStep n s _ := .length 2 hr hn (by decide) hl (Nat.succ_pos _)
    simpa [receiving, Memory.writeAll, htake] using hlength.runs_feeds
  | append_singleton bs b ih =>
    have hlen : (n :: bs).length < n.toNat := by simpa using hbs
    have hbyte := feedStep_receiving_body (s := s) (add_two_lt_bufSize hc hl) hlen b
    rw [List.length_append, List.length_singleton, List.replicate_succ']
    simpa using runs_feeds_snoc (ih (by simpa using hlen.le)) hbyte

/-- A wrong checksum byte drops the frame (40_frame_reader.md R126). -/
theorem runs_feeds_badChecksum {bs : List Byte} (hbs : bs.length + 1 = n.toNat) {b : Byte}
    (hb : b ≠ cksum (n :: bs)) :
    runs (feeds (n :: (bs ++ [b]))) s =
      some (List.replicate n.toNat 0x01#8 ++ [0x04#8], dropped n (n :: (bs ++ [b])) 0x04#8 s) := by
  have hbody := runs_feeds_body hr hn hc hl (bs := bs) (by omega)
  rw [hbs] at hbody
  exact runs_feeds_snoc hbody (feedStep_receiving_badChecksum (f := n :: bs) (add_two_lt_bufSize hc hl) hbs hb)

/-- A frame with the right checksum and, when CFG.CRC_EN is set, the right CRC is delivered (R126, R128). -/
theorem runs_feeds_frameOf {bs : List Byte} (hbs : bs.length + 1 = n.toNat) :
    runs (feeds (frameOf s.crcEn (n :: bs))) s =
      some (List.replicate (n.toNat + if s.crcEn then 2 else 0) 0x01#8 ++ [0x02#8],
        delivered n (frameOf s.crcEn (n :: bs)) s) := by
  have hroom := add_two_lt_bufSize hc hl
  have hbody := runs_feeds_body hr hn hc hl (bs := bs) (by omega)
  rw [hbs] at hbody
  have hbody_length : (n :: bs).length = n.toNat := hbs
  cases hcrc : s.crcEn with
  | false =>
    simpa [frameOf] using runs_feeds_snoc hbody (feedStep_receiving_checksum hroom hbody_length hcrc)
  | true =>
    have hsum := runs_feeds_snoc hbody (feedStep_receiving_checksumThenCrc hroom hbody_length hcrc)
    have hhigh := runs_feeds_snoc hsum (feedStep_receiving_crcHigh hroom (by simp [hbs]) (crcHigh (crc16 (n :: bs))))
    have hlow := runs_feeds_snoc hhigh
      (feedStep_receiving_crcMatch (body := n :: bs) hroom (by simp [← hbs]) (by simp [hbs]) hcrc (by simp [← hbs]))
    simpa [frameOf, crcBytes, List.replicate_succ'] using hlow

end

end Sys2Proof.Machine
end

section
/-! PROOFS. What follows for whole frames (40_frame_reader.md R129): two in a row, one with a changed bit, and how many
bytes one takes. -/

namespace Sys2Proof.Machine

/-! ## Two frames in a row -/

/-- Two markers and an accepted frame, from any header search state: the last byte delivers it. -/
theorem runs_feeds_markers_and_frame {s : State} {m : Fin 3} {f : List Byte} (hr : s.rstate = .hunt m)
    (hc : s.config.Wf) (hhead : f.head? ≠ some 0xFF#8) (hf : accepts s.config s.crcEn f = true) :
    ∃ n k, runs (feeds ([0xFF#8, 0xFF#8] ++ f)) s = some (List.replicate k 0x01#8 ++ [0x02#8], delivered n f s)
      ∧ (delivered n f s).rxFrame = some f := by
  cases f with
  | nil => exact absurd hf (by simp [accepts])
  | cons n rest =>
    obtain ⟨hl, bs, hbs, hframe⟩ := frameOf_of_accepts hf
    obtain ⟨-, hlen, -⟩ := (accepts_iff (n := n) rfl).1 hf
    have hmarkers := runs_feeds_markers 0 hr
    have hdeliver := runs_feeds_frameOf (s := { s with rstate := .hunt 2, idle := 0, evt := 0x01#8 }) rfl
      (by simpa using hhead) hc hl hbs
    have hrun := runs_feeds_append hmarkers hdeliver
    refine ⟨n, 2 + (n.toNat + if s.crcEn then 2 else 0), ?_, rxFrame_delivered hlen⟩
    rw [hframe, ← List.replicate_append_replicate, List.append_assoc]
    exact hrun

/-- Settles O20: the first frame leaves the reader in header search with CFG as it was, so the second is delivered
like it. -/
theorem backToBackFramesAreBothDelivered : Obligations.BackToBackFramesAreBothDelivered := by
  intro s f g h hr hf hg haf hag
  obtain ⟨n, k, hfirst, -⟩ := runs_feeds_markers_and_frame hr h.config hf haf
  obtain ⟨n', k', hsecond, hframe⟩ := runs_feeds_markers_and_frame (s := delivered n f s) rfl h.config hg hag
  have hrun := runs_feeds_append hfirst hsecond
  rw [← List.append_assoc] at hrun
  exact ⟨_, _, hrun, by simp [List.count_replicate], hframe⟩

/-! ## A changed bit -/

/-- Another byte in one place is another checksum (41_checksum_crc.md R157 (a)). -/
theorem cksum_set_ne {bs : List Byte} {p : Nat} (hp : p < bs.length) {y : Byte} (hy : y ≠ bs[p]) :
    cksum (bs.set p y) ≠ cksum bs := by
  have hsplit : cksum bs = cksum (bs.take p) + (bs[p] + cksum (bs.drop (p + 1))) := by
    rw [← cksum_cons, ← List.drop_eq_getElem_cons hp, ← cksum_append, List.take_append_drop]
  rw [List.set_eq_take_append_cons_drop, if_pos hp, hsplit]
  simpa [cksum_append, cksum_cons] using hy

theorem xor_bitMask_ne (x : Byte) (k : Fin 8) : x ^^^ bitMask k ≠ x := by
  have hmask : bitMask k ≠ 0#8 := by revert k; decide
  simpa using hmask

/-- A body and its checksum with one byte changed are a body and a byte that is not its checksum. -/
theorem exists_badChecksum_of_set {n : Byte} {bs : List Byte} {p : Nat} (hp : p < (bs ++ [cksum (n :: bs)]).length)
    {y : Byte} (hy : y ≠ (bs ++ [cksum (n :: bs)])[p]) :
    ∃ cs b, (bs ++ [cksum (n :: bs)]).set p y = cs ++ [b] ∧ cs.length = bs.length ∧ b ≠ cksum (n :: cs) := by
  by_cases hlt : p < bs.length
  · rw [List.getElem_append_left hlt] at hy
    refine ⟨bs.set p y, cksum (n :: bs), List.set_append_left _ _ hlt, by simp, ?_⟩
    simpa [cksum_cons] using (cksum_set_ne hlt hy).symm
  · have hend : p < bs.length + 1 := by simpa using hp
    obtain rfl : p = bs.length := by omega
    refine ⟨bs, y, by simp, rfl, ?_⟩
    simpa using hy

/-- Settles O22: whether the changed byte is the checksum or a byte before it, the checksum byte is wrong. -/
theorem singleBitChangeIsDropped : Obligations.SingleBitChangeIsDropped := by
  intro s n rest p k h hr hn hf hp
  obtain ⟨hl, bs, hbs, hframe⟩ := frameOf_of_accepts hf
  have htake : rest.take n.toNat = bs ++ [cksum (n :: bs)] := by
    obtain rfl : rest = bs ++ [cksum (n :: bs)] ++ if s.crcEn then crcBytes (crc16 (n :: bs)) else [] :=
      (List.cons.inj hframe).2
    exact List.take_left' (by simpa using hbs)
  have hlen : p < (bs ++ [cksum (n :: bs)]).length := by simpa [hbs] using hp
  have hx : rest[p]? = some (bs ++ [cksum (n :: bs)])[p] := by
    rw [← List.getElem?_eq_getElem hlen, ← htake, List.getElem?_take_of_lt hp]
  obtain ⟨cs, b, hset, hcs, hb⟩ := exists_badChecksum_of_set hlen (xor_bitMask_ne _ k)
  refine ⟨_, dropped n (n :: (cs ++ [b])) 0x04#8 s, hx, ?_, rfl, rfl⟩
  rw [List.take_set, htake, hset]
  exact runs_feeds_badChecksum hr hn h.config hl (hcs ▸ hbs) hb

/-! ## How many bytes a frame takes -/

/-- The fewest bytes that bring the reader from HUNT(0) to where it stands: the markers and the frame bytes so far. -/
def bytesSoFar (s : State) : Nat :=
  match s.rstate with
  | .hunt m => m.val
  | .body i => 2 + i
  | .crcb k => 2 + s.rxn.toNat + 1 + k.val

/-- A byte brings the reader at most one byte further, and delivers a frame only after the bytes of a whole frame. -/
theorem FeedStep.bytesSoFar_le {b : Byte} {s t : State} (h : FeedStep b s t) :
    bytesSoFar t ≤ bytesSoFar s + 1 ∧ (t.evt = 0x02#8 → 2 + t.rxn.toNat + 1 ≤ bytesSoFar s + 1) := by
  cases h with
  | marker m hr => simp [bytesSoFar, hr, val_nextMark]
  | garbage m hr => simp [bytesSoFar, hr]
  | length m hr hb hm => simp [bytesSoFar, hr]; omega
  | badLength m hr => simp [bytesSoFar, hr]
  | body i hr => simp [bytesSoFar, hr, Nat.add_assoc]
  | badChecksum hr => simp [bytesSoFar, hr]
  | checksumThenCrc hr => simp [bytesSoFar, hr]
  | checksum hr => simp [bytesSoFar, hr]
  | crcHigh hr => simp [bytesSoFar, hr]
  | crcMatch _ _ hr => simp [bytesSoFar, hr]
  | crcMismatch _ _ hr => simp [bytesSoFar, hr]

/-- A run that goes on ran its first command and then the others. -/
theorem runs_cons_eq_some {i : Instr} {is : List Instr} {s t : State} {es : List Byte}
    (h : runs (i :: is) s = some (es, t)) :
    ∃ u fs, exec i s = .next u ∧ runs is u = some (fs, t) ∧ es = u.evt :: fs := by
  cases hi : exec i s with
  | next u =>
    rw [runs_cons hi] at h
    obtain ⟨⟨fs, v⟩, hrest, heq⟩ := Option.map_eq_some_iff.1 h
    obtain ⟨rfl, rfl⟩ := Prod.mk.inj heq
    exact ⟨u, fs, rfl, hrest, rfl⟩
  | fault r => simp [runs, hi] at h
  | refused r => simp [runs, hi] at h

/-- Each command ends with an event, so a run without events is one of no commands. -/
theorem eq_of_runs_without_events {is : List Instr} {s t : State} (h : runs is s = some ([], t)) : t = s := by
  cases is with
  | nil => exact (Prod.mk.inj (Option.some.inj h)).2.symm
  | cons i is =>
    obtain ⟨u, fs, -, -, hes⟩ := runs_cons_eq_some h
    exact absurd hes (List.cons_ne_nil _ _).symm

/-- A run that ends in FRAME_READY has the bytes that were missing to a whole frame. -/
theorem le_bytesSoFar_of_frameReady {bs : List Byte} {s t : State} {es : List Byte}
    (h : runs (feeds bs) s = some (es ++ [0x02#8], t)) : 2 + t.rxn.toNat + 1 ≤ bytesSoFar s + bs.length := by
  induction bs generalizing s es with
  | nil => simp [feeds, runs] at h
  | cons b bs ih =>
    obtain ⟨u, fs, hb, hrest, hes⟩ := runs_cons_eq_some h
    obtain ⟨hmore, hready⟩ := (execFeed_next hb).bytesSoFar_le
    rw [List.length_cons]
    cases es with
    | nil =>
      obtain ⟨hevt, rfl⟩ := List.cons.inj hes
      obtain rfl := eq_of_runs_without_events hrest
      have := hready hevt.symm
      omega
    | cons e es =>
      obtain ⟨-, rfl⟩ := List.cons.inj hes
      have := ih hrest
      omega

/-- Settles O23: in HUNT(0) no byte has come. -/
theorem frameNeedsAllItsBytes : Obligations.FrameNeedsAllItsBytes := by
  intro s t bs es _ hr h
  simpa [bytesSoFar, hr] using le_bytesSoFar_of_frameReady h

end Sys2Proof.Machine
end

section
/-! PROOFS. The checksum and the CRC as functions of the bytes (41_checksum_crc.md R150 to R157). A CRC is taken bit by bit
here, so that a burst is a stretch of the bits wherever the bytes begin. -/

namespace Sys2Proof.Machine

/-! ## The checksum -/

/-- Settles O24, by induction on the list: each byte adds its value, and the remainders mod 256 add up. -/
theorem checksumIsTheSumModulo256 : Obligations.ChecksumIsTheSumModulo256 := by
  intro bs
  induction bs with
  | nil => rfl
  | cons b bs ih => rw [cksum_cons, BitVec.toNat_add, ih, Nat.add_mod_mod, List.map_cons, List.sum_cons]

/-! ## The CRC of given bytes -/

/-- Settles O25, by evaluation of `crc16`. -/
theorem crcCheckValues : Obligations.CrcCheckValues :=
  ⟨by decide +kernel, by decide +kernel, by decide +kernel⟩

/-! ## The shift of the CRC register -/

theorem crcShift_of_odd {c : BitVec 16} (h : c.getLsbD 0 = true) : crcShift c = c >>> 1 ^^^ 0xA001#16 := if_pos h

theorem crcShift_of_even {c : BitVec 16} (h : c.getLsbD 0 = false) : crcShift c = c >>> 1 :=
  if_neg (Bool.eq_false_iff.1 h)

theorem crcShift_xor (a b : BitVec 16) : crcShift (a ^^^ b) = crcShift a ^^^ crcShift b := by
  unfold crcShift
  rw [BitVec.getLsbD_xor, BitVec.ushiftRight_xor_distrib]
  have hcancel (p x y : BitVec 16) : (x ^^^ p) ^^^ (y ^^^ p) = x ^^^ y := by
    rw [BitVec.xor_comm y, ← BitVec.xor_assoc, xor_cancel_right]
  cases a.getLsbD 0 <;> cases b.getLsbD 0 <;> simp [hcancel] <;> ac_rfl

/-- An odd register gets bit 15 from 0xA001, which no even one has, so only 0 is shifted to 0. -/
theorem crcShift_eq_zero {c : BitVec 16} (h : crcShift c = 0#16) : c = 0#16 := by
  have heven : c.getLsbD 0 = false := by
    by_contra hodd
    have hhigh := congrArg (·.getLsbD 15) h
    simp [crcShift_of_odd (Bool.eq_true_of_not_eq_false hodd)] at hhigh
  apply BitVec.eq_of_getLsbD_eq
  intro i hi
  cases i with
  | zero => simpa using heven
  | succ i =>
    have hbit := congrArg (·.getLsbD i) h
    simpa [crcShift_of_even heven, Nat.add_comm] using hbit

theorem crcShift_injective : Function.Injective crcShift := by
  intro a b h
  have hzero : crcShift (a ^^^ b) = 0#16 := by rw [crcShift_xor, h, BitVec.xor_self]
  exact BitVec.xor_eq_zero_iff.1 (crcShift_eq_zero hzero)

theorem iter_injective {α : Type} {f : α → α} (hf : Function.Injective f) (n : Nat) : Function.Injective (iter f n) := by
  induction n with
  | zero => exact Function.injective_id
  | succ n ih => exact ih.comp hf

/-! ## The CRC bit by bit -/

/-- A bit enters the register at its low end. -/
def crcBit (c : BitVec 16) (b : Bool) : BitVec 16 := crcShift (c ^^^ (BitVec.ofBool b).setWidth 16)

/-- The register after the first `n` bits of `β`, from `c`. -/
def crcBits (β : Nat → Bool) : Nat → BitVec 16 → BitVec 16
  | 0, c => c
  | n + 1, c => crcBits (fun j => β (j + 1)) n (crcBit c (β 0))

theorem crcBits_add (β : Nat → Bool) (m n : Nat) (c : BitVec 16) :
    crcBits β (m + n) c = crcBits (fun j => β (m + j)) n (crcBits β m c) := by
  induction m generalizing β c with
  | zero => simp [crcBits]
  | succ m ih => simp [Nat.add_right_comm m 1, crcBits, ih]

theorem crcBits_congr {β γ : Nat → Bool} {n : Nat} (h : ∀ j, j < n → β j = γ j) (c : BitVec 16) :
    crcBits β n c = crcBits γ n c := by
  induction n generalizing β γ c with
  | zero => rfl
  | succ n ih =>
    rw [crcBits, crcBits, h 0 (Nat.succ_pos n), ih fun j hj => h (j + 1) (Nat.succ_lt_succ hj)]

theorem crcBits_injective (β : Nat → Bool) (n : Nat) : Function.Injective (crcBits β n) := by
  induction n generalizing β with
  | zero => exact Function.injective_id
  | succ n ih => exact (ih _).comp fun a b h => (BitVec.xor_left_inj _).1 (crcShift_injective h)

/-- The bits of an operand above the lowest are shifted and no more, so they can enter later. -/
theorem crcShift_xor_eq_crcBit (c v : BitVec 16) : crcShift (c ^^^ v) = crcBit c (v.getLsbD 0) ^^^ v >>> 1 := by
  generalize hlow : (BitVec.ofBool (v.getLsbD 0)).setWidth 16 = low
  have heven : (low ^^^ v).getLsbD 0 = false := by simp [← hlow]
  have hrest : (low ^^^ v) >>> 1 = v >>> 1 := by
    have hzero : low >>> 1 = 0#16 := by rw [← hlow]; cases v.getLsbD 0 <;> rfl
    rw [BitVec.ushiftRight_xor_distrib, hzero, BitVec.zero_xor]
  have hsplit : c ^^^ v = (c ^^^ low) ^^^ (low ^^^ v) := by
    rw [← BitVec.xor_assoc, xor_cancel_right]
  rw [hsplit, crcShift_xor, crcShift_of_even heven, hrest, crcBit, hlow]

/-- Bits that are put into the register together give what they give one after another. -/
theorem iter_crcShift_xor {v : BitVec 16} {n : Nat} (hv : ∀ j, n ≤ j → v.getLsbD j = false) (c : BitVec 16) :
    iter crcShift n (c ^^^ v) = crcBits v.getLsbD n c := by
  induction n generalizing v c with
  | zero =>
    obtain rfl : v = 0#16 := BitVec.eq_of_getLsbD_eq fun j _ => by simp [hv j (Nat.zero_le j)]
    simp [iter, crcBits]
  | succ n ih =>
    have hrest : ∀ j, (v >>> 1).getLsbD j = v.getLsbD (j + 1) := by simp [Nat.add_comm]
    rw [iter, crcShift_xor_eq_crcBit, ih (fun j hj => by rw [hrest, hv _ (Nat.succ_le_succ hj)]), crcBits]
    exact crcBits_congr (fun j _ => hrest j) _

/-- Different stretches of 16 bits leave different registers: together they are one operand. -/
theorem eq_of_crcBits_sixteen {β γ : Nat → Bool} {c : BitVec 16} (h : crcBits β 16 c = crcBits γ 16 c) {j : Nat}
    (hj : j < 16) : β j = γ j := by
  have hvalue (δ : Nat → Bool) :
      crcBits δ 16 c = iter crcShift 16 (c ^^^ BitVec.ofFnLE fun i : Fin 16 => δ i.val) := by
    rw [iter_crcShift_xor fun j hj => BitVec.getLsbD_of_ge _ j hj]
    exact crcBits_congr (fun j hj => by simp [hj]) c
  rw [hvalue, hvalue] at h
  have hbits := congrArg (·.getLsbD j) ((BitVec.xor_right_inj c).1 (iter_injective crcShift_injective 16 h))
  simpa [hj] using hbits

/-- The bits before a burst leave one register, and the bits after it keep different registers apart, so different bits
within the 16 places of the burst show at the end. -/
theorem eq_of_crcBits_of_burst {β γ : Nat → Bool} {k n : Nat} {c : BitVec 16}
    (hburst : ∀ j, j < k ∨ k + 16 ≤ j → β j = γ j) (h : crcBits β (k + 16 + n) c = crcBits γ (k + 16 + n) c) : β = γ := by
  have hafter : (fun j => β (k + 16 + j)) = fun j => γ (k + 16 + j) := funext fun j => hburst _ (.inr (by omega))
  rw [crcBits_add, crcBits_add γ, hafter] at h
  have hwindow := crcBits_injective _ _ h
  rw [crcBits_add, crcBits_add γ, crcBits_congr fun j hj => hburst j (.inl hj)] at hwindow
  funext j
  by_cases hj : j < k ∨ k + 16 ≤ j
  · exact hburst j hj
  · have hin := eq_of_crcBits_sixteen hwindow (j := j - k) (by omega)
    rwa [Nat.add_sub_cancel' (by omega)] at hin

/-! ## The bits of a list of bytes -/

/-- Bit `j` of the bytes in the order of 41_checksum_crc.md R152, and 0 after the last. -/
def bitAt (f : List Byte) (j : Nat) : Bool := (f[j / 8]?.getD 0#8).getLsbD (j % 8)

theorem bitAt_of_le {f : List Byte} {j : Nat} (h : 8 * f.length ≤ j) : bitAt f j = false := by
  have hend : f[j / 8]? = none := List.getElem?_eq_none (by omega)
  simp [bitAt, hend]

theorem bitAt_cons_of_lt (x : Byte) (f : List Byte) {j : Nat} (h : j < 8) : bitAt (x :: f) j = x.getLsbD j := by
  simp [bitAt, Nat.div_eq_of_lt h, Nat.mod_eq_of_lt h]

theorem bitAt_cons_add (x : Byte) (f : List Byte) (j : Nat) : bitAt (x :: f) (8 + j) = bitAt f j := by
  simp [bitAt, Nat.add_div_left]

theorem bitAt_mul_add {f : List Byte} {i r : Nat} (hi : i < f.length) (hr : r < 8) :
    bitAt f (8 * i + r) = f[i].getLsbD r := by
  have hdiv : (8 * i + r) / 8 = i := by omega
  have hmod : (8 * i + r) % 8 = r := by omega
  simp [bitAt, hdiv, hmod, hi]

theorem eq_of_bitAt_eq {f g : List Byte} (hlen : f.length = g.length) (h : bitAt f = bitAt g) : f = g := by
  refine List.ext_getElem hlen fun i hf hg => BitVec.eq_of_getLsbD_eq fun r hr => ?_
  rw [← bitAt_mul_add hf hr, h, bitAt_mul_add hg hr]

theorem crcByte_eq_crcBits (c : BitVec 16) (x : Byte) : crcByte c x = crcBits x.getLsbD 8 c := by
  rw [crcByte, iter_crcShift_xor fun j hj => by simp [hj]]
  exact crcBits_congr (fun j hj => by simp; omega) c

/-- Byte by byte and bit by bit the register is the same (41_checksum_crc.md R152). -/
theorem foldl_crcByte (f : List Byte) (c : BitVec 16) : f.foldl crcByte c = crcBits (bitAt f) (8 * f.length) c := by
  induction f generalizing c with
  | nil => rfl
  | cons x f ih =>
    rw [List.foldl_cons, ih, List.length_cons, Nat.mul_succ, Nat.add_comm, crcBits_add, crcByte_eq_crcBits,
      crcBits_congr (fun j hj => bitAt_cons_of_lt x f hj), funext (bitAt_cons_add x f)]

/-- Zeros after the last byte start from the CRC. -/
theorem crcBits_bitAt_add (f : List Byte) (n : Nat) :
    crcBits (bitAt f) (8 * f.length + n) 0#16 = crcBits (fun _ => false) n (crc16 f) := by
  rw [crcBits_add, ← foldl_crcByte, funext fun j => bitAt_of_le (Nat.le_add_right (8 * f.length) j)]
  rfl

/-- Settles O26: lists of the same length with the same CRC have the same bits. The bits are taken up to the end of the
burst and beyond, as a burst may reach past the last byte. -/
theorem crcDetectsBurstsOfSixteenBits : Obligations.CrcDetectsBurstsOfSixteenBits := by
  intro f g k hlen hne hburst hcrc
  have hsame : ∀ j, j < k ∨ k + 16 ≤ j → bitAt f j = bitAt g j := by
    intro j hj
    by_cases hend : 8 * f.length ≤ j
    · rw [bitAt_of_le hend, bitAt_of_le (hlen ▸ hend)]
    · have hf : j / 8 < f.length := by omega
      have hg : j / 8 < g.length := by omega
      have hbit := hburst j hj _ _ (List.getElem?_eq_getElem hf) (List.getElem?_eq_getElem hg)
      simpa [bitAt, hf, hg] using hbit
  have hlonger : crcBits (bitAt f) (k + 16 + 8 * f.length) 0#16 = crcBits (bitAt g) (k + 16 + 8 * f.length) 0#16 := by
    rw [Nat.add_comm, crcBits_bitAt_add, hcrc, hlen, crcBits_bitAt_add]
  exact hne (eq_of_bitAt_eq hlen (eq_of_crcBits_of_burst hsame hlonger))

end Sys2Proof.Machine
end

section
/-! PROOFS. The reader against the acceptance condition of 41_checksum_crc.md R155: what becomes of a candidate frame that is
not accepted. -/

namespace Sys2Proof.Machine

/-! ## Candidate frames -/

/-- A body with its checksum and, with the option, its CRC after it is accepted (41_checksum_crc.md R155). -/
theorem accepts_frameOf {c : Config} {crc : Bool} {n : Byte} {bs : List Byte} (hl : lengthOk c n = true)
    (hbs : bs.length + 1 = n.toNat) : accepts c crc (frameOf crc (n :: bs)) = true := by
  refine (accepts_iff (n := n) rfl).2 ⟨hl, ?_⟩
  cases crc <;> simp [frameOf, crcBytes, ← hbs]

/-- What follows the frame bytes `n :: bs` of a candidate frame that is not accepted: a wrong checksum, or the right one and
a wrong CRC (41_checksum_crc.md R155 (ii), (iii)). -/
inductive Rejected (crc : Bool) (n : Byte) (bs : List Byte) : List Byte → Prop where
  | checksum {b : Byte} {after : List Byte} (hb : b ≠ cksum (n :: bs)) (hafter : after.length ≤ 2) :
      Rejected crc n bs (b :: after)
  | crc {hi lo : Byte} (hcrc : crc = true) (hne : hi ++ lo ≠ crc16 (n :: bs)) :
      Rejected crc n bs [cksum (n :: bs), hi, lo]

theorem exists_rejected_of_not_accepts {c : Config} {crc : Bool} {n : Byte} {rest : List Byte}
    (hl : lengthOk c n = true) (hlen : rest.length = n.toNat + if crc then 2 else 0)
    (h : accepts c crc (n :: rest) = false) :
    ∃ bs tail, rest = bs ++ tail ∧ bs.length + 1 = n.toNat ∧ Rejected crc n bs tail := by
  obtain ⟨k, hk⟩ : ∃ k, n.toNat = k + 1 := Nat.exists_eq_add_of_le' (le_trans (by decide) (lengthOk_iff.1 hl).1)
  obtain ⟨bs, tail, hbs, rfl⟩ : ∃ bs tail, bs.length = k ∧ rest = bs ++ tail :=
    ⟨rest.take k, rest.drop k, List.length_take_of_le (by omega), (List.take_append_drop k rest).symm⟩
  refine ⟨bs, tail, rfl, by omega, ?_⟩
  have htail : tail.length = (if crc then 2 else 0) + 1 := by
    rw [List.length_append] at hlen; omega
  obtain ⟨b, after, rfl, hafter⟩ := List.length_eq_succ_iff.1 htail
  by_cases hb : b = cksum (n :: bs)
  case neg => exact .checksum hb (by rw [hafter]; split <;> omega)
  subst hb
  have haccepts := accepts_frameOf (crc := crc) hl (show bs.length + 1 = n.toNat by omega)
  cases crc with
  | false =>
    obtain rfl : after = [] := List.length_eq_zero_iff.1 hafter
    simp [frameOf, h] at haccepts
  | true =>
    obtain ⟨hi, lo, rfl⟩ := List.length_eq_two.1 hafter
    refine .crc rfl fun hcrc => ?_
    obtain ⟨rfl, rfl⟩ := (append_eq_crc hi lo _).1 hcrc
    simp [frameOf, crcBytes, h] at haccepts

/-! ## Dropped frames -/

/-- Before two markers in a row any byte gives INCOMPLETE and counts for at most one (40_frame_reader.md R122, R123). -/
theorem exists_feedStep_of_hunt (b : Byte) {s : State} {m : Fin 3} (hr : s.rstate = .hunt m) (hm : m.val < 2) :
    ∃ u m', FeedStep b s u ∧ u.rstate = .hunt m' ∧ m'.val ≤ m.val + 1 ∧ u.evt = 0x01#8 ∧ u.rxValid = s.rxValid := by
  by_cases hb : b = marker
  · exact ⟨_, nextMark m, .marker m hr hb, rfl, by rw [val_nextMark]; omega, rfl, rfl⟩
  · exact ⟨_, 0, .garbage m hr hb hm, rfl, Nat.zero_le _, rfl, rfl⟩

/-- In header search, bytes that are too few for two markers and a length byte deliver nothing. -/
theorem exists_runs_feeds_of_hunt {bs : List Byte} {s : State} {m : Fin 3} (hr : s.rstate = .hunt m)
    (hshort : m.val + bs.length ≤ 2) :
    ∃ t, runs (feeds bs) s = some (List.replicate bs.length 0x01#8, t) ∧ t.rxValid = s.rxValid := by
  induction bs generalizing s m with
  | nil => exact ⟨s, rfl, rfl⟩
  | cons b bs ih =>
    rw [List.length_cons] at hshort
    obtain ⟨u, m', hstep, hu, hm', hevt, hvalid⟩ := exists_feedStep_of_hunt b hr (by omega)
    obtain ⟨t, hrun, ht⟩ := ih hu (by omega)
    have hruns := runs_feeds_append hstep.runs_feeds hrun
    rw [hevt] at hruns
    exact ⟨t, hruns, ht.trans hvalid⟩

theorem feedStep_receiving_crcMismatch {s : State} {n : Byte} {f body : List Byte} {hi b : Byte}
    (hroom : n.toNat + 2 < s.config.bufSize) (hbody : f.take n.toNat = body) (hf : f.length = n.toNat + 2)
    (hhigh : f[n.toNat + 1]? = some hi) (hne : hi ++ b ≠ crc16 body) :
    FeedStep b (receiving n f (.crcb 1) s) (dropped n (f ++ [b]) 0x05#8 s) := by
  have hread : (s.rx.writeAll 0 f).readAll 0 (n.toNat + 2) = some f := hf ▸ Memory.readAll_writeAll s.rx 0 f
  have hread_high : (s.rx.writeAll 0 f).read (n.toNat + 1) = some hi := by
    rw [← hhigh, ← Memory.read_of_readAll hread (Nat.lt_succ_self _), Nat.zero_add]
  have hread_body : (s.rx.writeAll 0 f).readAll 0 n.toNat = some body := by
    rw [← hbody]
    exact Memory.readAll_take hread (Nat.le_add_right _ 2)
  rw [dropped, receiving_snoc hf (Nat.le_add_right _ 2)]
  exact .crcMismatch hi body rfl hroom hread_high hread_body hne

/-- A wrong CRC after the right checksum drops the frame at its last byte (40_frame_reader.md R128). -/
theorem runs_feeds_badCrc {s : State} {n : Byte} (hr : s.rstate = .hunt 2) (hn : n ≠ 0xFF#8) (hc : s.config.Wf)
    (hl : lengthOk s.config n = true) (hcrc : s.crcEn = true) {bs : List Byte} (hbs : bs.length + 1 = n.toNat)
    {hi lo : Byte} (hne : hi ++ lo ≠ crc16 (n :: bs)) :
    runs (feeds (n :: (bs ++ [cksum (n :: bs), hi, lo]))) s =
      some (List.replicate (n.toNat + 2) 0x01#8 ++ [0x05#8],
        dropped n (n :: (bs ++ [cksum (n :: bs), hi, lo])) 0x05#8 s) := by
  have hroom := add_two_lt_bufSize hc hl
  have hbody := runs_feeds_body hr hn hc hl (bs := bs) (by omega)
  rw [hbs] at hbody
  have hsum := runs_feeds_snoc hbody (feedStep_receiving_checksumThenCrc hroom hbs hcrc)
  have hhigh := runs_feeds_snoc hsum (feedStep_receiving_crcHigh hroom (by simp [hbs]) hi)
  have hlow := runs_feeds_snoc hhigh
    (feedStep_receiving_crcMismatch (body := n :: bs) hroom (by simp [← hbs]) (by simp [hbs]) (by simp [← hbs]) hne)
  simpa [List.replicate_succ'] using hlow

/-- A candidate frame that is not accepted is dropped: at its last CRC byte, or at its checksum byte, and then the CRC bytes
are fed in header search. -/
theorem Rejected.runs_feeds {s : State} {n : Byte} {bs tail : List Byte} (h : Rejected s.crcEn n bs tail)
    (hr : s.rstate = .hunt 2) (hn : n ≠ 0xFF#8) (hc : s.config.Wf) (hl : lengthOk s.config n = true)
    (hbs : bs.length + 1 = n.toNat) :
    ∃ es t, runs (feeds (n :: (bs ++ tail))) s = some (es, t) ∧ 0x02#8 ∉ es ∧ t.rxValid = false := by
  cases h with
  | @checksum b after hb hafter =>
    have hdrop := runs_feeds_badChecksum hr hn hc hl hbs hb
    obtain ⟨t, hrun, hvalid⟩ := exists_runs_feeds_of_hunt (s := dropped n (n :: (bs ++ [b])) 0x04#8 s) (m := 0) rfl
      (by simpa using hafter)
    have hall := runs_feeds_append hdrop hrun
    rw [List.cons_append, List.append_assoc] at hall
    exact ⟨_, t, hall, by simp, hvalid⟩
  | crc hcrc hne => exact ⟨_, _, runs_feeds_badCrc hr hn hc hl hcrc hbs hne, by simp, rfl⟩

/-- Settles O19: an accepted frame is a body with its checksum and CRC, and a candidate that is not accepted has a wrong one
of the two. -/
theorem readerDeliversExactlyTheAcceptedFrames : Obligations.ReaderDeliversExactlyTheAcceptedFrames := by
  intro s n rest h hr hl hn hlen
  cases haccepts : accepts s.config s.crcEn (n :: rest) with
  | true =>
    obtain ⟨-, bs, hbs, hframe⟩ := frameOf_of_accepts haccepts
    have hrun := runs_feeds_frameOf hr hn h.config hl hbs
    rw [← hframe, ← hlen] at hrun
    refine ⟨_, _, hrun, fun _ => ⟨rfl, rxFrame_delivered ?_, rfl, rfl⟩, nofun⟩
    rw [List.length_cons, hlen, Nat.add_right_comm]
  | false =>
    obtain ⟨bs, tail, rfl, hbs, hrejected⟩ := exists_rejected_of_not_accepts hl hlen haccepts
    obtain ⟨es, t, hrun, hevents, hvalid⟩ := hrejected.runs_feeds hr hn h.config hl hbs
    exact ⟨es, t, hrun, nofun, fun _ => ⟨hevents, hvalid⟩⟩

end Sys2Proof.Machine
end

section
/-! PROOFS. DECODE (42_record_codec.md R171 to R178): when it refuses, and what it leaves in each register. They
are read off `decodeRecord`, the state a successful DECODE leaves. -/

namespace Sys2Proof.Machine

/-! ## When DECODE refuses, and what it writes else -/

theorem execDecode_of_noFrame {s : State} (hv : s.rxValid = false) : execDecode s = .next { s with evt := 0x09#8 } := by
  simp [execDecode, hv, emit, Event.code]

theorem execDecode_of_short {s : State} (hv : s.rxValid = true) (hn : s.rxn.toNat < 34) :
    execDecode s = .next { s with evt := 0x08#8 } := by
  have hp : payloadLen s < recSize := by
    rw [← Nat.not_le, recSize_le_payloadLen]
    omega
  simp [execDecode, hv, hp, emit, Event.code]

/-- Settles O27: the two refusals, one before the other. -/
theorem decodeRefusesWithoutARecord : Obligations.DecodeRefusesWithoutARecord :=
  fun _ => ⟨execDecode_of_noFrame, execDecode_of_short⟩

/-- Settles O28: `decodeRecord_shape` names what a DECODE of a record writes. -/
theorem decodeCopiesTheRecordIntoBase : Obligations.DecodeCopiesTheRecordIntoBase := by
  intro s p hv hn hp
  obtain ⟨f, fo, oth, r, m, heq, -, hm, hrest, -⟩ := decodeRecord_shape p s
  refine ⟨_, execDecode_of_record hv hn hp, ?_⟩
  rw [heq]
  exact ⟨hm, hrest, rfl⟩

/-- The state after a DECODE of the record `p`, when it is given a name. -/
theorem eq_decodeRecord_of_exec {s t : State} {p : Record} (hv : s.rxValid = true) (hn : 34 ≤ s.rxn.toNat)
    (hp : HoldsRecord s.rx 10 p) (ht : exec .decode s = .next t) : t = decodeRecord p s :=
  (Host.Outcome.next.inj ((execDecode_of_record hv hn hp).symm.trans ht)).symm

/-! ## The mode -/

theorem decodeMode_of_powerOff {c : Config} {p : Record} (h : getBit p c.layout.power = false) (old : Option Mode) :
    decodeMode c p old = some .off :=
  if_pos h

theorem decodeMode_of_powerOn {c : Config} {p : Record} (h : getBit p c.layout.power = true) (old : Option Mode) :
    decodeMode c p old = (modeOfCode c.modeCode (p c.layout.mode)).or old := by
  cases hm : modeOfCode c.modeCode (p c.layout.mode) <;> simp [decodeMode, h, hm]

/-- A second status with the same record leaves the mode of the first. -/
theorem decodeMode_decodeMode (c : Config) (p : Record) (old : Option Mode) :
    decodeMode c p (decodeMode c p old) = decodeMode c p old := by
  cases h : getBit p c.layout.power with
  | false => simp only [decodeMode_of_powerOff h]
  | true => simp only [decodeMode_of_powerOn h, ← Option.or_assoc, Option.or_self]

/-- A byte that is no mode's code is not mapped (30_encoding.md R98). -/
theorem modeOfCode_eq_none {c : ModeCodes} {x : Byte} (h : ∀ m, modeCode c m ≠ some x) : modeOfCode c x = none :=
  Option.eq_none_iff_forall_ne_some.2 fun m hm => h m (modeOfCode_eq_some hm)

@[simp] theorem decodeRecord_mode (p : Record) (s : State) :
    (decodeRecord p s).mode = decodeMode s.config p s.mode := by
  rw [decodeRecord_eq]

@[simp] theorem decodeRecord_evt (p : Record) (s : State) : (decodeRecord p s).evt = 0x07#8 := rfl

/-- STATUS is the record's, with the mode and the fan that the DECODE left. -/
theorem decodeRecord_status (p : Record) (s : State) :
    (decodeRecord p s).status =
      some (statusOf p { s with mode := (decodeRecord p s).mode, fan := (decodeRecord p s).fan }) := by
  obtain ⟨f, fo, oth, r, m, heq, hr, -⟩ := decodeRecord_shape p s
  rw [heq, hr]

/-- Settles O29: the power bit and the mode byte choose among the cases of decode_mode. -/
theorem decodeMapsTheMode : Obligations.DecodeMapsTheMode := by
  intro s t p hc hv hn hp ht
  obtain rfl := eq_decodeRecord_of_exec hv hn hp ht
  obtain ⟨-, -, -, -, -, -, hcodes, -⟩ := hc
  refine ⟨fun hoff => ?off, fun m x hon hx hmode => ?mapped, fun hon hx => ?unmapped, ?status, rfl,
    decodeRecord_base p s⟩
  case off => rw [decodeRecord_mode, decodeMode_of_powerOff hoff]
  case mapped => rw [decodeRecord_mode, decodeMode_of_powerOn hon, hmode, modeOfCode_modeCode hcodes hx, Option.some_or]
  case unmapped => rw [decodeRecord_mode, decodeMode_of_powerOn hon, modeOfCode_eq_none hx, Option.none_or]
  case status => rw [decodeRecord_status]; rfl

/-! ## The fan -/

/-- A byte that is no fan speed's code is not mapped (30_encoding.md R98). -/
theorem fanOfCode_eq_none {c : FanCodes} {x : Byte} (h : ∀ f, x ≠ fanCode c f) : fanOfCode c x = none :=
  Option.eq_none_iff_forall_ne_some.2 fun f hf => h f (fanOfCode_eq_some hf).symm

/-- The fan registers after a record with a mapped fan code: FAN, and the memory of the context (R174, R176). -/
theorem decodeRecord_fans_of_mapped {p : Record} {s : State} {f : Fan}
    (h : fanOfCode s.config.fanCode (p s.config.layout.fan) = some f) :
    (decodeRecord p s).fan = some f
    ∧ ((decodeRecord p s).mode = some .fanOnly →
      (decodeRecord p s).fanFo = some f ∧ (decodeRecord p s).fanOther = s.fanOther)
    ∧ ((decodeRecord p s).mode ≠ some .fanOnly →
      (decodeRecord p s).fanFo = s.fanFo ∧ (decodeRecord p s).fanOther = some f) := by
  simp only [decodeRecord_eq, decodeRegs_mapped h, true_and]
  exact ⟨fun hm => ⟨if_pos hm, if_pos hm⟩, fun hm => ⟨if_neg hm, if_neg hm⟩⟩

/-- The fan registers after a record with an unmapped fan code (R174). -/
theorem decodeRecord_fans_of_unmapped {p : Record} {s : State}
    (h : fanOfCode s.config.fanCode (p s.config.layout.fan) = none) :
    (decodeRecord p s).fan = s.fan ∧ (decodeRecord p s).fanFo = s.fanFo
    ∧ (decodeRecord p s).fanOther = s.fanOther := by
  simp only [decodeRecord_eq, decodeRegs_unmapped h, and_self]

/-- FAN after a DECODE: the mapped speed, else as it was (R174). -/
theorem decodeRecord_fan (p : Record) (s : State) :
    (decodeRecord p s).fan = (fanOfCode s.config.fanCode (p s.config.layout.fan)).or s.fan := by
  cases h : fanOfCode s.config.fanCode (p s.config.layout.fan) with
  | some f => exact (decodeRecord_fans_of_mapped h).1
  | none => exact (decodeRecord_fans_of_unmapped h).1

/-- Settles O30: the fan byte is a fan speed's code, or it is unmapped. -/
theorem decodeMapsTheFan : Obligations.DecodeMapsTheFan := by
  intro s t p hc hv hn hp ht
  obtain rfl := eq_decodeRecord_of_exec hv hn hp ht
  obtain ⟨-, -, -, -, -, -, -, hcodes⟩ := hc
  refine ⟨fun f hf => decodeRecord_fans_of_mapped ?_,
    fun hf => decodeRecord_fans_of_unmapped (fanOfCode_eq_none hf), ?_⟩
  · rw [hf, fanOfCode_fanCode hcodes]
  · rw [decodeRecord_status]; rfl

/-- Settles O33: only DECODE writes a fan memory, and only when the fan code is mapped; the mode then says which one. -/
theorem fanMemoriesNeverMix : Obligations.FanMemoriesNeverMix := by
  intro i s t h hi
  obtain ⟨-, -, -, hdecode, -⟩ := everyRegisterHasItsWriters i s t h hi
  by_cases hfans : t.fanFo = s.fanFo ∧ t.fanOther = s.fanOther
  · exact ⟨absurd hfans.1, absurd hfans.2⟩
  have hchanged : t.fanFo ≠ s.fanFo ∨ t.fanOther ≠ s.fanOther := not_and_or.1 hfans
  obtain rfl : i = .decode := hdecode (by tauto)
  obtain ⟨-, rfl⟩ | ⟨-, -, rfl⟩ | ⟨p, -, -, -, rfl⟩ := execDecode_next h
  · exact absurd ⟨rfl, rfl⟩ hfans
  · exact absurd ⟨rfl, rfl⟩ hfans
  cases hf : fanOfCode s.config.fanCode (p s.config.layout.fan) with
  | none => exact absurd (decodeRecord_fans_of_unmapped hf).2 hfans
  | some f =>
    obtain ⟨hfan, hfanOnly, hother⟩ := decodeRecord_fans_of_mapped hf
    by_cases hm : (decodeRecord p s).mode = some .fanOnly
    · obtain ⟨hfo, hkept⟩ := hfanOnly hm
      exact ⟨fun _ => ⟨rfl, hm, hfo.trans hfan.symm, hkept⟩, absurd hkept⟩
    · obtain ⟨hkept, hoth⟩ := hother hm
      exact ⟨absurd hkept, fun _ => ⟨rfl, hm, hoth.trans hfan.symm, hkept⟩⟩

/-! ## The other fields of STATUS -/

/-- SWING_BOTH is set when its byte is not 0x00 or its bit is 1 (30_encoding.md R99). -/
theorem getBoth_eq_of_kind {p : Record} {pos : BothPos} {both : Bool}
    (hbyte : ∀ o, pos = .byte o → (both = true ↔ p o ≠ 0x00#8)) (hbit : ∀ f, pos = .bit f → both = getBit p f) :
    getBoth p pos = both := by
  cases pos with
  | byte o => rw [getBoth, Bool.eq_iff_iff, bne_iff_ne]; exact (hbyte o rfl).symm
  | bit f => exact (hbit f rfl).symm

/-- Settles O31: `decodeSwing` asks for SWING_BOTH, SWING_V and SWING_H in this order. -/
theorem decodeDerivesTheSwing : Obligations.DecodeDerivesTheSwing := by
  intro s t p hv hn hp ht both hbyte hbit
  obtain rfl := eq_decodeRecord_of_exec hv hn hp ht
  have hswing : (decodeRecord p s).status.map StatusRecord.swing = some (decodeSwing s.config.layout p) := by
    rw [decodeRecord_status]; rfl
  rw [hswing, decodeSwing, getBoth_eq_of_kind hbyte hbit]
  refine ⟨?both, ?vertical, ?horizontal, ?off⟩
  case both => rintro rfl; rfl
  case vertical => rintro rfl hvert; simp [hvert]
  case horizontal => rintro rfl hvert hhor; simp [hvert, hhor]
  case off => rintro rfl hvert hhor; simp [hvert, hhor]

/-- Settles O32: the fields stand in `statusOf` as the record has them. -/
theorem decodeReadsTemperaturesAndFlags : Obligations.DecodeReadsTemperaturesAndFlags := by
  intro s t p hv hn hp ht
  obtain rfl := eq_decodeRecord_of_exec hv hn hp ht
  exact ⟨_, decodeRecord_status p s, rfl, rfl, rfl, rfl, rfl⟩

end Sys2Proof.Machine
end

section
/-! PROOFS. SETINT and CLRINT (42_record_codec.md R185 to R188). -/

namespace Sys2Proof.Machine

/-- The mode index takes its place in the source's list (00_scope.md R17); 6 and 7 are past its end. -/
theorem modeOfIndex_eq_getElem? :
    ∀ v : BitVec 3, modeOfIndex v = [Mode.off, .auto, .cool, .heat, .dry, .fanOnly][v.toNat]? := by
  decide

theorem some_fanOfIndex_eq_getElem? :
    ∀ v : BitVec 2, some (fanOfIndex v) = [Fan.auto, .low, .mid, .high][v.toNat]? := by
  decide

theorem some_swingOfIndex_eq_getElem? :
    ∀ v : BitVec 2, some (swingOfIndex v) = [Swing.off, .vertical, .horizontal, .both][v.toNat]? := by
  decide

/-- Settles O34: the new intent is `intentOf`, whose indices are places in the lists of R17. -/
theorem setintReplacesTheWholeIntent : Obligations.SetintReplacesTheWholeIntent := by
  intro s w hw
  refine ⟨fun hb => ?ignored, fun hb => ⟨intentOf w, ?replaced, ?mode, ?fan, ?swing, rfl, rfl⟩⟩
  case ignored | replaced => simp [exec, execSetint, hw, hb, emit, Event.code]
  case mode => rw [← modeOfIndex_eq_getElem?]; rfl
  case fan => rw [← some_fanOfIndex_eq_getElem?]; rfl
  case swing => rw [← some_swingOfIndex_eq_getElem?]; rfl

/-- Settles O35: the equation is the meaning of CLRINT. -/
theorem clrintEmptiesTheIntent : Obligations.ClrintEmptiesTheIntent := fun _ => rfl

end Sys2Proof.Machine
end

section
/-! PROOFS. ENCODE (42_record_codec.md R190 to R199). The control record is made in five steps, each of which writes
one part of the layout; the parts share no bit, so each part of the control record is what its own step makes of the
baseline. -/

namespace Sys2Proof

open Machine

/-! ## The parts of a layout -/

/-- The parts of a record: the room temperature, which ENCODE never writes, and one part for each of its steps
(42_record_codec.md R190). -/
inductive RecordPart where
  | room | mode | fan | swing | setpoint | flags

/-- Every part of a record. -/
def RecordPart.all : List RecordPart := [.room, .mode, .fan, .swing, .setpoint, .flags]

theorem RecordPart.mem_all (i : RecordPart) : i ∈ RecordPart.all := by
  cases i <;> simp [RecordPart.all]

/-- The bits of a part (30_encoding.md R96). -/
def Layout.part (l : Layout) : RecordPart → List BitPos
  | .room => byteBits l.roomTemp
  | .mode => l.power :: byteBits l.mode
  | .fan => byteBits l.fan
  | .swing => l.swingV :: l.swingH :: l.swingBoth.bits
  | .setpoint => byteBits l.setpoint
  | .flags => [l.display, l.beeper]

/-- The parts are the bits of the layout, ordered by the step that writes them. -/
theorem Layout.parts_perm_bits (l : Layout) : (RecordPart.all.flatMap l.part).Perm l.bits := by
  refine List.perm_iff_count.2 fun g => ?_
  simp only [RecordPart.all, Layout.part, Layout.bits, List.flatMap_cons, List.flatMap_nil, List.count_append,
    List.count_cons, List.count_nil]
  omega

theorem Layout.mem_bits_of_mem_part {l : Layout} {g : BitPos} {i : RecordPart} (h : g ∈ l.part i) : g ∈ l.bits :=
  l.parts_perm_bits.mem_iff.1 (List.mem_flatMap.2 ⟨i, i.mem_all, h⟩)

/-- In a well-formed layout a bit is in one part (30_encoding.md R96). -/
theorem Layout.Wf.part_unique {l : Layout} (h : l.Wf) {g : BitPos} {i j : RecordPart} (hi : g ∈ l.part i)
    (hj : g ∈ l.part j) : i = j := by
  have hnodup : (RecordPart.all.flatMap l.part).Nodup := l.parts_perm_bits.nodup_iff.2 h
  obtain ⟨-, hdisjoint⟩ := List.nodup_flatMap.1 hnodup
  have hsymm : Std.Symm (Function.onFun List.Disjoint l.part) := ⟨fun _ _ hd => hd.symm⟩
  by_contra hne
  exact hdisjoint.forall i.mem_all j.mem_all hne hi hj

end Sys2Proof

namespace Sys2Proof.Machine

/-! ## The steps of ENCODE -/

/-- The step of ENCODE that writes the part `i`. -/
def encodeStep (s : State) (p : Record) : RecordPart → Record
  | .room => p
  | .mode => encodeMode s.config p (activeIntent s).mode
  | .fan => encodeFan s.config p (activeIntent s).fan (effectiveMode s)
  | .swing => encodeSwing s.config p (activeIntent s).swing
  | .setpoint => encodeTemp s.config p (activeIntent s).temp
  | .flags => encodeConfig s.config p s.displayOn s.beeperSilent

/-- The order in which ENCODE writes the parts (42_record_codec.md R190). -/
def encodeOrder : List RecordPart := [.mode, .fan, .swing, .setpoint, .flags]

theorem controlRecord_eq_foldl (p : Record) (s : State) : controlRecord p s = encodeOrder.foldl (encodeStep s) p := rfl

section
variable {s : State} {p : Record} {g : BitPos}

/-- A step keeps every bit outside its part. -/
theorem getBit_encodeStep {i : RecordPart} (hg : g ∉ s.config.layout.part i) :
    getBit (encodeStep s p i) g = getBit p g := by
  cases i with
  | room => rfl
  | mode =>
    simp only [Layout.part, List.mem_cons, mem_byteBits, not_or] at hg
    obtain ⟨hpower, hbyte⟩ := hg
    exact getBit_encodeMode_of_ne _ _ _ hpower hbyte
  | fan => exact getBit_encodeFan_of_ne _ _ _ _ fun h => hg (mem_byteBits.2 h)
  | swing =>
    simp only [Layout.part, List.mem_cons, not_or] at hg
    obtain ⟨hvertical, hhorizontal, hboth⟩ := hg
    exact getBit_encodeSwing_of_ne _ _ _ hboth hvertical hhorizontal
  | setpoint => exact getBit_encodeTemp_of_ne _ _ _ fun h => hg (mem_byteBits.2 h)
  | flags =>
    simp only [Layout.part, List.mem_cons, List.not_mem_nil, or_false, not_or] at hg
    obtain ⟨hdisplay, hbeeper⟩ := hg
    exact getBit_encodeConfig_of_ne _ _ _ _ hdisplay hbeeper

theorem getBit_foldl_encodeStep {is : List RecordPart} (hg : ∀ i ∈ is, g ∉ s.config.layout.part i) :
    getBit (is.foldl (encodeStep s) p) g = getBit p g := by
  induction is generalizing p with
  | nil => rfl
  | cons i is ih =>
    rw [List.foldl_cons, ih fun j hj => hg j (List.mem_cons_of_mem i hj),
      getBit_encodeStep (hg i List.mem_cons_self)]

/-- ENCODE keeps every bit that is in no part it writes (42_record_codec.md R196). -/
theorem getBit_controlRecord_of_not_mem (hg : ∀ i ∈ encodeOrder, g ∉ s.config.layout.part i) :
    getBit (controlRecord p s) g = getBit p g := by
  rw [controlRecord_eq_foldl, getBit_foldl_encodeStep hg]

end

/-- Two records have the same bits at these places. -/
def AgreeOn (bs : List BitPos) (p q : Record) : Prop := ∀ g ∈ bs, getBit p g = getBit q g

theorem AgreeOn.trans {bs : List BitPos} {p q r : Record} (h : AgreeOn bs p q) (h' : AgreeOn bs q r) : AgreeOn bs p r :=
  fun g hg => (h g hg).trans (h' g hg)

theorem AgreeOn.subset {bs bs' : List BitPos} {p q : Record} (h : AgreeOn bs p q) (hsub : bs' ⊆ bs) : AgreeOn bs' p q :=
  fun g hg => h g (hsub hg)

theorem AgreeOn.byte {bs : List BitPos} {p q : Record} (h : AgreeOn bs p q) {o : Fin 24} (ho : byteBits o ⊆ bs) :
    p o = q o :=
  byte_congr fun g hg => h g (ho (mem_byteBits.2 hg))

/-- On its part the control record is what the part's step made of a record that was still the baseline there. -/
theorem exists_agreeOn_encodeStep {s : State} (hl : s.config.layout.Wf) (p : Record) {i : RecordPart}
    (hi : i ∈ encodeOrder) :
    ∃ p', AgreeOn (s.config.layout.part i) p' p
      ∧ AgreeOn (s.config.layout.part i) (controlRecord p s) (encodeStep s p' i) := by
  obtain ⟨before, after, horder⟩ := List.append_of_mem hi
  have hnodup : (before ++ i :: after).Nodup := horder ▸ (by simp [encodeOrder] : encodeOrder.Nodup)
  obtain ⟨-, hafter, hbefore⟩ := List.nodup_append.1 hnodup
  refine ⟨before.foldl (encodeStep s) p, fun g hg => ?_, fun g hg => ?_⟩
  · refine getBit_foldl_encodeStep fun j hj hgj => ?_
    exact hbefore j hj i List.mem_cons_self (hl.part_unique hgj hg)
  · rw [controlRecord_eq_foldl, horder, List.foldl_append, List.foldl_cons]
    refine getBit_foldl_encodeStep fun j hj hgj => ?_
    obtain rfl := hl.part_unique hgj hg
    exact (List.nodup_cons.1 hafter).1 hj

theorem layout_wf_of_wf {c : Config} (hc : c.Wf) : c.layout.Wf := by
  obtain ⟨-, -, -, -, -, hl, -, -⟩ := hc
  exact hl

/-! ## The intent that ENCODE applies -/

theorem activeIntent_of_valid {s : State} (h : s.intValid = true) : activeIntent s = s.intent := if_pos h

/-- A part of the intent is absent when there is no intent or the intent has none (42_record_codec.md R190). -/
theorem activeIntent_part_eq_none {α : Type} {s : State} (part : Intent → Option α) (hempty : part .empty = none)
    (h : s.intValid = false ∨ part s.intent = none) : part (activeIntent s) = none := by
  unfold activeIntent
  split
  · next hv => exact h.resolve_left (by simp [hv])
  · exact hempty

/-- The effective mode: the intent's mode when it has one, else MODE (42_record_codec.md R192). -/
theorem effectiveMode_eq {s : State} {eff : Option Mode}
    (hintent : s.intValid = true → ∀ m, s.intent.mode = some m → eff = some m)
    (hmode : s.intValid = false ∨ s.intent.mode = none → eff = s.mode) : effectiveMode s = eff := by
  by_cases h : s.intValid = false ∨ s.intent.mode = none
  · rw [hmode h, effectiveMode, activeIntent_part_eq_none Intent.mode rfl h]
  · obtain ⟨hv, hm⟩ := not_or.1 h
    obtain ⟨m, hm⟩ := Option.ne_none_iff_exists'.1 hm
    have hv : s.intValid = true := by simpa using hv
    rw [hintent hv m hm, effectiveMode, activeIntent_of_valid hv, hm]

/-! ## ENCODE as a command -/

theorem execEncode_of_noBaseline {s : State} (hb : s.baseValid = false) :
    execEncode s = .next { s with evt := 0x0B#8 } := by
  simp [execEncode, hb, emit, Event.code]

/-- Settles O36: `encodeRecord_shape` names what an ENCODE of a record writes. -/
theorem encodeNeedsABaselineAndBuildsARecord : Obligations.EncodeNeedsABaselineAndBuildsARecord := by
  intro s
  refine ⟨execEncode_of_noBaseline, fun hb ⟨p, hp⟩ => ?_⟩
  obtain ⟨m, heq, hm, hrest, -⟩ := encodeRecord_shape p s
  refine ⟨_, execEncode_of_record hb hp, ?_⟩
  rw [heq]
  exact ⟨⟨_, hm⟩, hrest, rfl⟩

/-- The state after an ENCODE with the baseline `p`, when it is given a name. -/
theorem eq_encodeRecord_of_exec {s t : State} {p : Record} (hb : s.baseValid = true) (hp : HoldsRecord s.base 0 p)
    (ht : exec .encode s = .next t) : t = encodeRecord p s :=
  (Host.Outcome.next.inj ((execEncode_of_record hb hp).symm.trans ht)).symm

/-- After an ENCODE with the baseline `p` the record in TXP is the control record, and ENC_FLAGS has its two bits. -/
theorem txp_and_encFlags_of_exec_encode {s t : State} {p q : Record} (hb : s.baseValid = true)
    (hp : HoldsRecord s.base 0 p) (ht : exec .encode s = .next t) (hq : HoldsRecord t.txp 0 q) :
    q = controlRecord p s
    ∧ t.encFlags.getLsbD 0 = fanRejected (activeIntent s).fan (effectiveMode s)
    ∧ t.encFlags.getLsbD 1 = tempRejected s.config (activeIntent s).temp := by
  obtain rfl := eq_encodeRecord_of_exec hb hp ht
  refine ⟨hq.unique (encodeRecord_txp p s), ?_⟩
  rw [encodeRecord_eq]
  exact encFlagsOf_bits _ _

/-! ## The mode -/

/-- OFF has no wire code, every other mode has one (30_encoding.md R98). -/
theorem exists_modeCode (c : ModeCodes) {m : Mode} (hm : m ≠ .off) : ∃ x, modeCode c m = some x := by
  cases m with
  | off => exact absurd rfl hm
  | auto | cool | heat | dry | fanOnly => exact ⟨_, rfl⟩

/-- Settles O37: the three cases of encode_mode. -/
theorem encodeWritesTheMode : Obligations.EncodeWritesTheMode := by
  intro s t p q hc hb hp ht hq
  obtain ⟨rfl, -, -⟩ := txp_and_encFlags_of_exec_encode hb hp ht hq
  have hl := layout_wf_of_wf hc
  obtain ⟨p', hbase, hstep⟩ := exists_agreeOn_encodeStep hl p (i := .mode) (by simp [encodeOrder])
  have hpower : s.config.layout.power ∈ s.config.layout.part .mode := List.mem_cons_self
  have hmode : byteBits s.config.layout.mode ⊆ s.config.layout.part .mode := List.subset_cons_self _ _
  obtain ⟨-, hoff, -⟩ := hl.separate.bits s.config.layout.power (by simp [Layout.bitFields])
  rw [hstep _ hpower, hstep.byte hmode, ← hbase _ hpower, ← hbase.byte hmode, encodeStep]
  refine ⟨fun hnone => ?none, fun hv hm => ?off, fun m hv hm hne => ?mode⟩
  case none => rw [activeIntent_part_eq_none Intent.mode rfl hnone]; exact ⟨rfl, rfl⟩
  case off =>
    rw [activeIntent_of_valid hv, hm]
    simp [encodeMode, modeCode, getBit_setBit, setBit_of_ne _ _ hoff.symm]
  case mode =>
    obtain ⟨x, hx⟩ := exists_modeCode s.config.modeCode hne
    rw [activeIntent_of_valid hv, hm]
    simp [encodeMode, hx, getBit_setBit, getBit_setByte, hoff]

/-! ## The fan -/

/-- Settles O38: encode_fan and FAN_REJ by the same test. -/
theorem encodeWritesTheFan : Obligations.EncodeWritesTheFan := by
  intro s t p q eff hc hb hp ht hq hintent hmode
  obtain ⟨rfl, hflag, -⟩ := txp_and_encFlags_of_exec_encode hb hp ht hq
  obtain ⟨p', hbase, hstep⟩ := exists_agreeOn_encodeStep (layout_wf_of_wf hc) p (i := .fan) (by simp [encodeOrder])
  rw [hflag, hstep.byte (List.Subset.refl _), ← hbase.byte (List.Subset.refl _), encodeStep,
    effectiveMode_eq hintent hmode]
  refine ⟨fun hnone => ?none, fun hv hf heff => ?rejected, fun f hv hf hok => ?written⟩
  case none => rw [activeIntent_part_eq_none Intent.fan rfl hnone]; simp [encodeFan, fanRejected]
  case rejected => rw [activeIntent_of_valid hv, hf]; simp [encodeFan, fanRejected, heff]
  case written =>
    have haccepted : fanRejected (some f) eff = false := by simpa [fanRejected] using hok
    rw [activeIntent_of_valid hv, hf]
    simp [encodeFan, haccepted]

/-! ## The swing -/

/-- encode_swing writes each of the three swing fields with its own value (42_record_codec.md R193). -/
theorem encodeSwing_fields {c : Config} (hl : c.layout.Wf) (p : Record) (w : Swing) :
    AgreeOn c.layout.swingBoth.bits (encodeSwing c p (some w)) (setBoth p c.layout.swingBoth (decide (w = .both)))
    ∧ getBit (encodeSwing c p (some w)) c.layout.swingV = decide (w = .vertical)
    ∧ getBit (encodeSwing c p (some w)) c.layout.swingH = decide (w = .horizontal) := by
  obtain ⟨-, -, -, -, hv⟩ := hl.separate.bits c.layout.swingV (by simp [Layout.bitFields])
  obtain ⟨-, -, -, -, hh⟩ := hl.separate.bits c.layout.swingH (by simp [Layout.bitFields])
  have hvh : c.layout.swingV ≠ c.layout.swingH := by
    have hnodup := hl.separate.bitsNodup
    simp only [Layout.bitFields, List.nodup_cons, List.mem_cons, not_or] at hnodup
    tauto
  refine ⟨fun g hg => ?both, ?vertical, ?horizontal⟩
  case both => simp [encodeSwing, getBit_setBit, ne_of_mem_of_not_mem hg hv, ne_of_mem_of_not_mem hg hh]
  case vertical => simp [encodeSwing, getBit_setBit, hvh]
  case horizontal => simp [encodeSwing, getBit_setBit]

/-- Settles O39: without a swing the step keeps the baseline, with one `encodeSwing_fields` has the three fields. -/
theorem encodeWritesTheSwing : Obligations.EncodeWritesTheSwing := by
  intro s t p q hc hb hp ht hq
  obtain ⟨rfl, -, -⟩ := txp_and_encFlags_of_exec_encode hb hp ht hq
  have hl := layout_wf_of_wf hc
  obtain ⟨p', hbase, hstep⟩ := exists_agreeOn_encodeStep hl p (i := .swing) (by simp [encodeOrder])
  have hv : s.config.layout.swingV ∈ s.config.layout.part .swing := by simp [Layout.part]
  have hh : s.config.layout.swingH ∈ s.config.layout.part .swing := by simp [Layout.part]
  have hboth : s.config.layout.swingBoth.bits ⊆ s.config.layout.part .swing := fun g hg => by simp [Layout.part, hg]
  refine ⟨fun hnone => ?none, fun w hvalid hw => ?written⟩
  case none =>
    rw [encodeStep, activeIntent_part_eq_none Intent.swing rfl hnone] at hstep
    have hkept : AgreeOn (s.config.layout.part .swing) (controlRecord p s) p := hstep.trans hbase
    exact ⟨fun g hg => hkept g (hboth hg), hkept _ hv, hkept _ hh⟩
  case written =>
    rw [encodeStep, activeIntent_of_valid hvalid, hw] at hstep
    obtain ⟨hfield, hvert, hhor⟩ := encodeSwing_fields hl p' w
    have hfield := (hstep.subset hboth).trans hfield
    refine ⟨fun o ho => ?byte, fun f hf => ?bit, (hstep _ hv).trans hvert, (hstep _ hh).trans hhor⟩
    case byte =>
      rw [ho] at hfield
      simpa [setBoth] using hfield.byte (List.Subset.refl _)
    case bit =>
      rw [hf] at hfield
      simpa [setBoth, getBit_setBit] using hfield f List.mem_cons_self

/-! ## The set-point -/

/-- The difference of a byte and a number, mod 256. -/
theorem toNat_sub_ofNat_eq_emod (x : Byte) (n : Nat) :
    ((x - BitVec.ofNat 8 n).toNat : Int) = ((x.toNat : Int) - n) % 256 := by
  rw [BitVec.toNat_sub, BitVec.toNat_ofNat]
  omega

/-- Settles O40: encode_temp and TEMP_REJ by the same test. -/
theorem encodeWritesTheSetpoint : Obligations.EncodeWritesTheSetpoint := by
  intro s t p q hc hb hp ht hq
  obtain ⟨rfl, -, hflag⟩ := txp_and_encFlags_of_exec_encode hb hp ht hq
  obtain ⟨p', hbase, hstep⟩ := exists_agreeOn_encodeStep (layout_wf_of_wf hc) p (i := .setpoint) (by simp [encodeOrder])
  rw [hflag, hstep.byte (List.Subset.refl _), ← hbase.byte (List.Subset.refl _), encodeStep]
  refine ⟨fun hnone => ?none, fun x hv hx hmin hmax => ?written, fun x hv hx hout => ?rejected⟩
  case none => rw [activeIntent_part_eq_none Intent.temp rfl hnone]; exact ⟨rfl, rfl⟩
  case written =>
    have hin : tempInRange s.config x = true := by simp [tempInRange, hmin, hmax]
    rw [activeIntent_of_valid hv, hx]
    simp only [encodeTemp, tempRejected, hin, if_true, setByte_same, toNat_sub_ofNat_eq_emod, Bool.not_true, and_self]
  case rejected =>
    have hin : tempInRange s.config x = false := by simpa [tempInRange] using hout
    rw [activeIntent_of_valid hv, hx]
    simp [encodeTemp, tempRejected, hin]

/-! ## The flags, and what is kept -/

/-- The last step writes DISPLAY and BEEPER with its own values (42_record_codec.md R195). -/
theorem encodeConfig_flags {c : Config} (hl : c.layout.Wf) (p : Record) (d b : Bool) :
    getBit (encodeConfig c p d b) c.layout.display = d ∧ getBit (encodeConfig c p d b) c.layout.beeper = b := by
  have hne : c.layout.display ≠ c.layout.beeper := by
    have hnodup := hl.separate.bitsNodup
    simp only [Layout.bitFields, List.nodup_cons, List.mem_cons, not_or] at hnodup
    tauto
  simp [encodeConfig, getBit_setBit, hne]

/-- Settles O41: the last step writes the flags, and neither the room temperature nor a reserved bit is in a part that a
step writes. -/
theorem encodeSetsFlagsAndKeepsReservedBits : Obligations.EncodeSetsFlagsAndKeepsReservedBits := by
  intro s t p q hc hb hp ht hq
  obtain ⟨rfl, -, -⟩ := txp_and_encFlags_of_exec_encode hb hp ht hq
  have hl := layout_wf_of_wf hc
  obtain ⟨p', -, hstep⟩ := exists_agreeOn_encodeStep hl p (i := .flags) (by simp [encodeOrder])
  obtain ⟨hdisplay, hbeeper⟩ := encodeConfig_flags hl p' s.displayOn s.beeperSilent
  refine ⟨?display, ?beeper, byte_congr fun g hg => ?room, fun f hf => ?reserved⟩
  case display => exact (hstep _ (by simp [Layout.part])).trans hdisplay
  case beeper => exact (hstep _ (by simp [Layout.part])).trans hbeeper
  case room =>
    refine getBit_controlRecord_of_not_mem fun i hi hgi => ?_
    obtain rfl : RecordPart.room = i := hl.part_unique (mem_byteBits.2 hg) hgi
    exact absurd hi (by simp [encodeOrder])
  case reserved => exact getBit_controlRecord_of_not_mem fun i _ hfi => hf (Layout.mem_bits_of_mem_part hfi)

/-! ## No intent, and the preset -/

/-- An intent without effect on the wire has at most a preset (42_record_codec.md R197, R199). -/
theorem NoIntent.activeIntent_parts {s : State} (h : NoIntent s) :
    (activeIntent s).mode = none ∧ (activeIntent s).fan = none ∧ (activeIntent s).swing = none
    ∧ (activeIntent s).temp = none :=
  ⟨activeIntent_part_eq_none Intent.mode rfl (h.imp_right fun ⟨hm, _⟩ => hm),
    activeIntent_part_eq_none Intent.fan rfl (h.imp_right fun ⟨_, hf, _⟩ => hf),
    activeIntent_part_eq_none Intent.swing rfl (h.imp_right fun ⟨_, _, hs, _⟩ => hs),
    activeIntent_part_eq_none Intent.temp rfl (h.imp_right fun ⟨_, _, _, ht⟩ => ht)⟩

/-- Without an intent only the last step does anything, and it writes the flags with the values they have. -/
theorem controlRecord_of_noIntent {s : State} {p : Record} (h : NoIntent s)
    (hdisplay : s.cfg.getLsbD 1 = getBit p s.config.layout.display)
    (hbeeper : s.cfg.getLsbD 2 = getBit p s.config.layout.beeper) : controlRecord p s = p := by
  obtain ⟨hmode, hfan, hswing, htemp⟩ := h.activeIntent_parts
  calc controlRecord p s = encodeConfig s.config p s.displayOn s.beeperSilent := by
        simp only [controlRecord, hmode, hfan, hswing, htemp, encodeMode, encodeFan, encodeSwing, encodeTemp]
    _ = p := by rw [encodeConfig, State.displayOn, State.beeperSilent, hdisplay, setBit_self, hbeeper, setBit_self]

/-- Settles O42: the control record is the baseline, and there is no fan and no temperature to reject. -/
theorem encodeWithoutIntentKeepsTheBaseline : Obligations.EncodeWithoutIntentKeepsTheBaseline := by
  intro s t p hb hp hnone hdisplay hbeeper ht
  obtain rfl := eq_encodeRecord_of_exec hb hp ht
  obtain ⟨-, hfan, -, htemp⟩ := hnone.activeIntent_parts
  have htxp := encodeRecord_txp p s
  rw [controlRecord_of_noIntent hnone hdisplay hbeeper] at htxp
  refine ⟨htxp, ?_⟩
  rw [encodeRecord_eq, hfan, htemp]
  simp [tempRejected, fanRejected, encFlagsOf]

/-- No step of ENCODE asks for the preset (42_record_codec.md R199). -/
theorem encodeRecord_withPreset (p : Record) (s : State) (v : Option (BitVec 3)) :
    encodeRecord p { s with intent := { s.intent with preset := v } } =
      { encodeRecord p s with intent := { s.intent with preset := v } } := by
  cases hv : s.intValid <;>
    simp [encodeRecord_eq, controlRecord, effectiveMode, activeIntent, hv, State.displayOn, State.beeperSilent]

/-- Settles O43: whether ENCODE is rejected or not, the preset is not asked for. -/
theorem presetHasNoWireEffect : Obligations.PresetHasNoWireEffect := by
  intro s t v ht
  obtain ⟨hb, rfl⟩ | ⟨p, hb, hp, rfl⟩ := execEncode_next ht
  · exact execEncode_of_noBaseline hb
  · have henc := execEncode_of_record (s := { s with intent := { s.intent with preset := v } }) hb hp
    rw [encodeRecord_withPreset] at henc
    rw [encodeRecord_eq] at henc ⊢
    exact henc

end Sys2Proof.Machine
end

section
/-! PROOFS. The round trip of a record (42_record_codec.md R197, 43_framer_control.md R210): BUILD puts it into a frame,
the reader delivers that frame, and a second DECODE of the record leaves the STATUS of the first. -/

namespace Sys2Proof.Machine

/-! ## BUILD of a record -/

theorem builtLen_bounds (pl : Bool) : 8 ≤ builtLen pl ∧ builtLen pl ≤ 34 := by
  cases pl <;> decide

/-- The parameters leave room for every frame BUILD makes (43_framer_control.md R210). -/
theorem builtLen_add_three_le {c : Config} (hc : c.Wf) (pl : Bool) : builtLen pl + 3 ≤ c.maxFrameSize := by
  obtain ⟨hsize, -⟩ := hc
  have hbounds := builtLen_bounds pl
  omega

theorem execBuild_of_record {s : State} {p : Record} (hc : s.config.Wf) (hv : s.txpValid = true)
    (hp : HoldsRecord s.txp 0 p) (ty a0 a1 : Byte) :
    execBuild true ty a0 a1 s = .next (putTx (buildFrame s.crcEn true ty a0 a1 p.bytes) s) := by
  have hfit := builtLen_add_three_le hc true
  simp [execBuild, hv, Memory.readRecord_eq_some.2 hp, buildWith, Nat.not_lt.2 hfit]

/-- What BUILD puts into TX is the frame the host reads (10_state.md R40). -/
theorem txFrame_putTx (f : List Byte) (s : State) : (putTx f s).txFrame = some f :=
  Memory.readAll_writeAll s.tx 0 f

/-! ## The reader takes the built frame -/

/-- The length byte of a built frame (43_framer_control.md R210). -/
def builtLenByte (pl : Bool) : Byte := BitVec.ofNat 8 (builtLen pl)

theorem builtLenByte_toNat (pl : Bool) : (builtLenByte pl).toNat = builtLen pl := by
  cases pl <;> rfl

theorem lengthOk_builtLenByte {c : Config} (hc : c.Wf) (pl : Bool) : lengthOk c (builtLenByte pl) = true := by
  have hfit := builtLen_add_three_le hc pl
  have hbounds := builtLen_bounds pl
  rw [lengthOk_iff, builtLenByte_toNat, Config.lenMax, lenMin]
  omega

/-- From any header search state the reader delivers a built frame at its last byte (43_framer_control.md R210). -/
theorem runs_feeds_buildFrame {s : State} {m : Fin 3} (hr : s.rstate = .hunt m) (hc : s.config.Wf) {pl : Bool}
    {payload : List Byte} (hlen : payload.length + 10 = builtLen pl) (ty a0 a1 : Byte) :
    runs (feeds (buildFrame s.crcEn pl ty a0 a1 payload)) s =
      some (List.replicate (2 + (builtLen pl + if s.crcEn then 2 else 0)) 0x01#8 ++ [0x02#8],
        delivered (builtLenByte pl) (frameOf s.crcEn (buildBody pl ty a0 a1 payload)) s) := by
  have hmarker : builtLenByte pl ≠ 0xFF#8 := by cases pl <;> decide
  have hbody : (prefixBytes ++ [ty, a0, a1] ++ payload).length + 1 = (builtLenByte pl).toNat := by
    rw [builtLenByte_toNat, ← hlen]
    simp [prefixBytes]
  have hdeliver := runs_feeds_frameOf (s := { s with rstate := .hunt 2, idle := 0, evt := 0x01#8 }) rfl hmarker hc
    (lengthOk_builtLenByte hc pl) hbody
  have hrun := runs_feeds_append (runs_feeds_markers 0 hr) hdeliver
  rw [← List.append_assoc, List.replicate_append_replicate, builtLenByte_toNat] at hrun
  exact hrun

/-- A record among other bytes written from index 0 stands where the bytes before it end. -/
theorem HoldsRecord.writeAll_between (m : Memory) (before after : List Byte) (p : Record) :
    HoldsRecord (m.writeAll 0 (before ++ p.bytes ++ after)) before.length p := by
  intro j
  have hread := Memory.read_of_readAll (Memory.readAll_writeAll m 0 (before ++ p.bytes ++ after))
    (j := before.length + j.val) (by simp; omega)
  rw [Nat.zero_add] at hread
  rw [hread, List.append_assoc, List.getElem?_append_right (Nat.le_add_right _ _), Nat.add_sub_cancel_left,
    List.getElem?_append_left (by simp), Record.bytes_getElem?]

@[simp] theorem delivered_rx (n : Byte) (f : List Byte) (s : State) :
    (delivered n f s).rx = s.rx.writeAll 0 f := rfl

/-- The payload of a delivered frame that BUILD made is the record it was made from (30_encoding.md R95). -/
theorem holdsRecord_delivered_buildBody (n ty a0 a1 : Byte) (p : Record) (crc : Bool) (s : State) :
    HoldsRecord (delivered n (frameOf crc (buildBody true ty a0 a1 p.bytes)) s).rx 10 p := by
  obtain ⟨after, hafter⟩ : ∃ after, frameOf crc (buildBody true ty a0 a1 p.bytes) =
      builtLenByte true :: prefixBytes ++ [ty, a0, a1] ++ p.bytes ++ after := ⟨_, List.append_assoc ..⟩
  rw [delivered_rx, hafter]
  exact .writeAll_between s.rx (builtLenByte true :: prefixBytes ++ [ty, a0, a1]) after p

/-- The record in TXP goes through BUILD and the reader, and the next DECODE decodes it; MODE and FAN stay on the
way. -/
theorem exists_runs_buildFrame_and_decode {s : State} {p : Record} {m : Fin 3} (hr : s.rstate = .hunt m)
    (hc : s.config.Wf) (hv : s.txpValid = true) (hp : HoldsRecord s.txp 0 p) (ty a0 a1 : Byte) :
    ∃ t f es d, exec (.build true ty a0 a1) s = .next t ∧ t.txFrame = some f
      ∧ runs (feeds f) t = some (es ++ [0x02#8], d) ∧ exec .decode d = .next (decodeRecord p d)
      ∧ d.config = s.config ∧ d.mode = s.mode ∧ d.fan = s.fan := by
  have hlen : p.bytes.length + 10 = builtLen true := by rw [Record.bytes_length]; rfl
  exact ⟨_, _, _, _, execBuild_of_record hc hv hp ty a0 a1, txFrame_putTx _ _,
    runs_feeds_buildFrame (s := putTx (buildFrame s.crcEn true ty a0 a1 p.bytes) s) hr hc hlen ty a0 a1,
    execDecode_of_record rfl (builtLenByte_toNat true).ge (holdsRecord_delivered_buildBody _ ty a0 a1 p _ _),
    rfl, rfl, rfl⟩

/-! ## The second DECODE -/

/-- A DECODE of the same record, from the mode and the fan that the first left, gives the same STATUS. -/
theorem decodeRecord_status_again {p : Record} {s d : State} (hc : d.config = s.config)
    (hmode : d.mode = (decodeRecord p s).mode) (hfan : d.fan = (decodeRecord p s).fan) :
    (decodeRecord p d).status = (decodeRecord p s).status := by
  have hmode' : (decodeRecord p d).mode = (decodeRecord p s).mode := by
    simp only [decodeRecord_mode, hmode, hc, decodeMode_decodeMode]
  have hfan' : (decodeRecord p d).fan = (decodeRecord p s).fan := by
    simp only [decodeRecord_fan, hfan, hc, ← Option.or_assoc, Option.or_self]
  simp only [decodeRecord_status, hmode', hfan', statusOf, hc]

/-- A DECODE that ends with DECODED decoded the record that BASE then holds, from a frame that was delivered. -/
theorem eq_decodeRecord_of_decoded {s t : State} {p : Record} (ht : exec .decode s = .next t)
    (hevt : t.evt = 0x07#8) (hp : HoldsRecord t.base 0 p) : s.rxValid = true ∧ t = decodeRecord p s := by
  obtain ⟨-, rfl⟩ | ⟨-, -, rfl⟩ | ⟨p', hv, -, -, rfl⟩ := execDecode_next ht
  · exact absurd hevt (by simp)
  · exact absurd hevt (by simp)
  · obtain rfl := (decodeRecord_base p' s).unique hp
    exact ⟨hv, rfl⟩

/-- Settles O47: ENCODE puts the record into TXP as it is, BUILD and the reader carry it back to RX, and there it is
decoded again. -/
theorem encodedFrameDecodesToTheSameStatus : Obligations.EncodedFrameDecodesToTheSameStatus := by
  intro s a p ty a0 a1 h hdec hevt hnone hbase hdisplay hbeeper
  have hc : a.config.Wf := (h.exec hdec).config
  obtain ⟨hv, ha⟩ := eq_decodeRecord_of_decoded hdec hevt hbase
  obtain ⟨⟨m, hhunt⟩, -⟩ := h.r47.c hv
  have hr : a.rstate = .hunt m := by rw [ha, decodeRecord_eq, hhunt]
  have hvalid : a.baseValid = true := by rw [ha, decodeRecord_eq]
  have hconfig : a.config = s.config := (exec_writes hdec).config_eq
  have htxp := encodeRecord_txp p a
  rw [controlRecord_of_noIntent hnone hdisplay hbeeper] at htxp
  obtain ⟨c, f, es, d, hbuild, hframe, hrun, hdecode, hd, hmode, hfan⟩ :=
    exists_runs_buildFrame_and_decode (s := encodeRecord p a) hr hc rfl htxp ty a0 a1
  have hmode : d.mode = a.mode := hmode
  have hfan : d.fan = a.fan := hfan
  rw [ha] at hmode hfan
  have hstatus := decodeRecord_status_again (hd.trans hconfig) hmode hfan
  rw [← ha] at hstatus
  exact ⟨es, f, _, c, d, _, execEncode_of_record hvalid hbase, hbuild, hframe, hrun, hdecode, hstatus,
    decodeRecord_base p d⟩

end Sys2Proof.Machine
end

section
/-! PROOFS. The control commands: NOP, SETCFG, RESET and the reserved opcodes (43_framer_control.md R212 to R218). -/

namespace Sys2Proof.Machine

/-- Settles O2: the reset state for the parameters, with the pending words put back. -/
theorem resetCommandGivesTheResetState : Obligations.ResetCommandGivesTheResetState := fun _ => ⟨_, rfl, rfl, rfl, rfl⟩

/-- Settles O3: the meaning of NOP is the event NONE. -/
theorem nopWritesOnlyEvt : Obligations.NopWritesOnlyEvt := fun _ => rfl

/-- Each option of SETCFG has its own bit of CFG (10_state.md R27). -/
theorem cfgByte_bits (bs don ce : Bool) :
    (cfgByte bs don ce).getLsbD 0 = ce ∧ (cfgByte bs don ce).getLsbD 1 = don ∧ (cfgByte bs don ce).getLsbD 2 = bs := by
  cases bs <;> cases don <;> cases ce <;> decide

/-- Bits 7:3 of CFG read as 0 (10_state.md R27). -/
theorem cfgByte_getLsbD_of_three_le (bs don ce : Bool) {k : Nat} (hk : 3 ≤ k) :
    (cfgByte bs don ce).getLsbD k = false :=
  Nat.testBit_lt_two_pow ((cfgByte_lt bs don ce).trans_le (show 2 ^ 3 ≤ 2 ^ k from Nat.pow_le_pow_right two_pos hk))

/-- Settles O4: the byte written is `cfgByte` of the three options. -/
theorem setcfgWritesTheConfiguration : Obligations.SetcfgWritesTheConfiguration := by
  intro s bs don ce
  obtain ⟨hcrc, hdisplay, hbeeper⟩ := cfgByte_bits bs don ce
  exact ⟨cfgByte bs don ce, rfl, hcrc, hdisplay, hbeeper, fun _ hk => cfgByte_getLsbD_of_three_le bs don ce hk⟩

/-- Settles O5: the commands by what each of them means, the words as those that are ILLEGAL by 30_encoding.md R89 (a). -/
theorem reservedOpcodesWriteOnlyEvt : Obligations.ReservedOpcodesWriteOnlyEvt := by
  refine fun s => ⟨fun x i hi => exec_of_isReserved ⟨x, hi⟩ s, fun w hw => ?_⟩
  have hop : 0xB#32 ≤ w >>> 28 := by
    rw [BitVec.le_def, BitVec.toNat_ushiftRight, Nat.shiftRight_eq_div_pow]
    exact hw
  exact (illegalWordsAreExactlyThose w s).1 (.inl hop)

end Sys2Proof.Machine
end

section
/-! PROOFS. BUILD (43_framer_control.md R210): it refuses without its payload, and otherwise makes a frame that the reader
delivers. -/

namespace Sys2Proof.Machine

/-- Settles O44: TXP_VALID is asked for first. -/
theorem buildRefusesWithoutAPayload : Obligations.BuildRefusesWithoutAPayload := fun _ _ _ _ hv => if_pos hv

/-- The payload a BUILD puts into its frame: nothing, or the control record in TXP (43_framer_control.md R210). -/
inductive BuildPayload (s : State) : Bool → List Byte → Prop where
  | none : BuildPayload s false []
  | record {p : Record} (hv : s.txpValid = true) (hp : HoldsRecord s.txp 0 p) : BuildPayload s true p.bytes

section
variable {s : State} {pl : Bool} {payload : List Byte}

/-- The payload is as long as the length byte of the frame says. -/
theorem BuildPayload.length_add_ten (h : BuildPayload s pl payload) : payload.length + 10 = builtLen pl := by
  cases h with
  | none => rfl
  | record => rw [Record.bytes_length]; rfl

/-- With its payload at hand BUILD makes its frame: TOO_LONG cannot happen (43_framer_control.md R210). -/
theorem BuildPayload.exec_build (h : BuildPayload s pl payload) (hc : s.config.Wf) (ty a0 a1 : Byte) :
    exec (.build pl ty a0 a1) s = .next (putTx (buildFrame s.crcEn pl ty a0 a1 payload) s) := by
  cases h with
  | none =>
    have hfit := builtLen_add_three_le hc false
    simp [exec, execBuild, buildWith, Nat.not_lt.2 hfit]
  | record hv hp => exact execBuild_of_record hc hv hp ty a0 a1

theorem buildPayload_of_readAll (hnone : pl = false → payload = [])
    (hrecord : pl = true → s.txpValid = true ∧ s.txp.readAll 0 24 = some payload) : BuildPayload s pl payload := by
  cases pl with
  | false => exact hnone rfl ▸ .none
  | true =>
    obtain ⟨hv, hread⟩ := hrecord rfl
    obtain ⟨p, hp, rfl⟩ := exists_record_of_readAll hread
    exact .record hv hp

end

/-- While TXP_VALID is set TXP holds a record, so a BUILD that may go on has its payload. -/
theorem FscInv.exists_buildPayload {s : State} (h : FscInv s) {pl : Bool} (hv : pl = true → s.txpValid = true) :
    ∃ payload, BuildPayload s pl payload := by
  cases pl with
  | false => exact ⟨[], .none⟩
  | true =>
    obtain ⟨p, hp⟩ := h.txp (hv rfl)
    exact ⟨p.bytes, .record (hv rfl) hp⟩

/-- The frame bytes before the checksum, written out (43_framer_control.md R210, R211). -/
theorem buildBody_eq (pl : Bool) (ty a0 a1 : Byte) (payload : List Byte) :
    buildBody pl ty a0 a1 payload =
      [if pl then 0x22#8 else 0x0A#8, 0x00#8, 0x00#8, 0x00#8, 0x00#8, 0x00#8, 0x01#8, ty, a0, a1] ++ payload := by
  cases pl <;> rfl

theorem buildBody_length (pl : Bool) (ty a0 a1 : Byte) (payload : List Byte) :
    (buildBody pl ty a0 a1 payload).length = payload.length + 10 := by
  simp [buildBody_eq]

/-- The checksum and, with the option, the CRC follow the body (30_encoding.md R93). -/
theorem frameOf_length (crc : Bool) (body : List Byte) :
    (frameOf crc body).length = body.length + 1 + if crc then 2 else 0 := by
  cases crc <;> simp [frameOf, crcBytes]

/-- Settles O45: the buffer holds the frame BUILD wrote from cell 0, and its cells above as they were. -/
theorem buildMakesTheFrame : Obligations.BuildMakesTheFrame := by
  intro s pl ty a0 a1 payload body hc hnone hrecord hbody
  rw [← buildBody_eq] at hbody
  obtain ⟨tx, hput, hread, hkeep, -⟩ := putTx_shape (buildFrame s.crcEn pl ty a0 a1 payload) s
  refine ⟨_, (buildPayload_of_readAll hnone hrecord).exec_build hc ty a0 a1, ?frame, ?above, putTx_eq _ s⟩
  case frame =>
    rw [txFrame_putTx, buildFrame, frameOf, ← hbody]
    simp only [List.append_assoc]
    rfl
  case above => rw [hput]; exact hkeep

/-- Settles O46: BUILD leaves the reader in header search and CFG as it was, so the reader delivers the frame. -/
theorem builtFrameIsAcceptedByTheReader : Obligations.BuiltFrameIsAcceptedByTheReader := by
  intro s pl ty a0 a1 h hr hv
  obtain ⟨m, hr⟩ := hr
  obtain ⟨payload, hpayload⟩ := h.exists_buildPayload hv
  have hlen := hpayload.length_add_ten
  have hrun := runs_feeds_buildFrame (s := putTx (buildFrame s.crcEn pl ty a0 a1 payload) s) hr h.config hlen ty a0 a1
  have hevents : 2 + (builtLen pl + if s.crcEn then 2 else 0) =
      (buildFrame s.crcEn pl ty a0 a1 payload).length - 1 := by
    rw [buildFrame_length, ← hlen]
    omega
  have hlength : (frameOf s.crcEn (buildBody pl ty a0 a1 payload)).length =
      (builtLenByte pl).toNat + 1 + if s.crcEn then 2 else 0 := by
    rw [frameOf_length, buildBody_length, hlen, builtLenByte_toNat]
  refine ⟨_, _, _, _, hpayload.exec_build h.config ty a0 a1, txFrame_putTx _ s, hrun, ?events, ?frame, rfl⟩
  case events => rw [← hevents]; rfl
  case frame => exact rxFrame_delivered hlength

end Sys2Proof.Machine
end

section
/-! PROOFS. The events each command can end with (60_exceptions.md R241), and that no command stops the machine (R240):
under the invariant the reader has room for each byte it takes, and each record that a valid flag promises can be read. -/

namespace Sys2Proof.Machine

/-! ## The events of each command -/

/-- FEED ends with INCOMPLETE, with FRAME_READY, or with the event of what it met wrong. -/
theorem FeedStep.evt_mem {b : Byte} {s t : State} (h : FeedStep b s t) :
    t.evt ∈ [0x01#8, 0x02#8, 0x03#8, 0x04#8, 0x05#8] := by
  cases h with
  | marker | garbage | length | body | checksumThenCrc | crcHigh => exact .head _
  | checksum | crcMatch => exact .tail _ (.head _)
  | badLength => simp
  | badChecksum => simp
  | crcMismatch => simp

theorem execTick_evt_mem {s t : State} (h : execTick s = .next t) : t.evt ∈ [0x00#8, 0x06#8] := by
  obtain ⟨-, rfl⟩ | ⟨-, -, rfl⟩ | ⟨-, -, rfl⟩ := execTick_next h <;> simp

/-- A SETINT that is a command does not end with ILLEGAL (30_encoding.md R89). -/
theorem execSetint_evt_mem {w : IntentWord} {s t : State} (hw : w.wf = true) (h : execSetint w s = .next t) :
    t.evt ∈ [0x0F#8, 0x10#8] := by
  obtain ⟨hill, -⟩ | ⟨-, -, rfl⟩ | ⟨-, -, rfl⟩ := execSetint_next h
  · simp [hw] at hill
  · simp
  · simp

theorem execDecode_evt_mem {s t : State} (h : execDecode s = .next t) : t.evt ∈ [0x07#8, 0x08#8, 0x09#8] := by
  obtain ⟨-, rfl⟩ | ⟨-, -, rfl⟩ | ⟨p, -, -, -, rfl⟩ := execDecode_next h <;> simp

theorem execEncode_evt_mem {s t : State} (h : execEncode s = .next t) : t.evt ∈ [0x0A#8, 0x0B#8] := by
  obtain ⟨-, rfl⟩ | ⟨p, -, -, rfl⟩ := execEncode_next h
  · simp
  · simp [encodeRecord_eq]

theorem execBuild_evt_mem {pl : Bool} {ty a0 a1 : Byte} {s t : State} (h : execBuild pl ty a0 a1 s = .next t) :
    t.evt ∈ [0x0C#8, 0x0D#8, 0x0E#8] := by
  obtain ⟨-, -, rfl⟩ | ⟨-, rfl⟩ | ⟨payload, -, -, -, rfl⟩ := execBuild_next h
  · simp
  · simp
  · simp [putTx_eq]

/-- An ILLEGAL word ends with ILLEGAL alone (43_framer_control.md R217). -/
theorem illegal_evt_mem {s t : State} (h : illegal s = .next t) : t.evt ∈ [0x14#8] := by
  obtain rfl := illegal_next h
  exact .head _

/-- Settles O54: a command with several outcomes by the list of its outcomes, each other command by the one event it
emits. -/
theorem everyCommandEndsWithOneOfItsEvents : Obligations.EveryCommandEndsWithOneOfItsEvents := by
  intro i s t hi h
  cases i with
  | nop => obtain rfl := Host.Outcome.next.inj h; exact .head _
  | feed b => exact (execFeed_next h).evt_mem
  | tick => exact execTick_evt_mem h
  | hunt => obtain rfl := Host.Outcome.next.inj h; exact .head _
  | setcfg bs don ce => obtain rfl := Host.Outcome.next.inj h; exact .head _
  | setint w => exact execSetint_evt_mem hi h
  | clrint => obtain rfl := Host.Outcome.next.inj h; exact .head _
  | decode => exact execDecode_evt_mem h
  | encode => exact execEncode_evt_mem h
  | build pl ty a0 a1 => exact execBuild_evt_mem h
  | reset => obtain rfl := Host.Outcome.next.inj h; exact .head _
  | reservedB x => exact illegal_evt_mem h
  | reservedC x => exact illegal_evt_mem h
  | reservedD x => exact illegal_evt_mem h
  | reservedE x => exact illegal_evt_mem h
  | reservedF x => exact illegal_evt_mem h

/-! ## Every command completes -/

/-- Cells in the middle of a range that can be read. -/
theorem Memory.readAll_take_drop {m : Memory} {i n k l : Nat} {bs : List Byte} (h : m.readAll i n = some bs)
    (hkl : k + l ≤ n) : m.readAll (i + k) l = some ((bs.drop k).take l) := by
  have hlen := Memory.readAll_length h
  refine Memory.readAll_eq_some.2 ⟨by simp; omega, fun j hj => ?_⟩
  rw [List.getElem?_take_of_lt hj, List.getElem?_drop, ← Memory.read_of_readAll h (by omega), Nat.add_assoc]

/-- SETINT needs nothing of the state: each of its guards answers with an event (42_record_codec.md R185). -/
theorem exists_execSetint_eq_next (w : IntentWord) (s : State) : ∃ t, execSetint w s = .next t := by
  unfold execSetint illegal
  split
  · exact ⟨_, rfl⟩
  · split <;> exact ⟨_, rfl⟩

section
variable {s : State} (h : FscInv s)
include h

/-- FEED has an outcome in every control state (40_frame_reader.md R121). In BODY(i) that is because i is at most RXN,
and RXN an accepted length (10_state.md R47 (a)). -/
theorem FscInv.exists_feedStep (b : Byte) : ∃ t, FeedStep b s t := by
  cases hr : s.rstate with
  | hunt m =>
    by_cases hb : b = marker
    · exact ⟨_, .marker m hr hb⟩
    by_cases hm : m.val < 2
    · exact ⟨_, .garbage m hr hb hm⟩
    cases hl : lengthOk s.config b with
    | true => exact ⟨_, .length m hr hb hm hl (Nat.succ_pos _)⟩
    | false => exact ⟨_, .badLength m hr hb hm hl⟩
  | body i =>
    have hroom := h.room_of_body hr
    obtain ⟨-, hle, -⟩ := h.r47.a i hr
    obtain hlt | rfl := hle.lt_or_eq
    · exact ⟨_, .body i hr hlt (hlt.trans hroom)⟩
    by_cases hb : b = s.sum
    · cases hcrc : s.crcL with
      | true => exact ⟨_, .checksumThenCrc hr hroom hb hcrc⟩
      | false => exact ⟨_, .checksum hr hroom hb hcrc⟩
    · exact ⟨_, .badChecksum hr hroom hb⟩
  | crcb k =>
    have hroom := h.room_of_crcb hr
    obtain rfl | rfl : k = 0 ∨ k = 1 := by omega
    · exact ⟨_, .crcHigh hr (by omega)⟩
    · obtain ⟨hi, frame, hhigh, hframe⟩ := (h.crcb 1 hr).high_and_body
      by_cases hcrc : hi ++ b = crc16 frame
      · exact ⟨_, .crcMatch hi frame hr hroom hhigh hframe hcrc⟩
      · exact ⟨_, .crcMismatch hi frame hr hroom hhigh hframe hcrc⟩

/-- A delivered frame that is long enough for a record holds one: it is an accepted frame, so none of its cells is ⊥
(10_state.md R29). -/
theorem FscInv.hasRecord_rx (hv : s.rxValid = true) (hn : 34 ≤ s.rxn.toNat) : HasRecord s.rx hdrSize := by
  obtain ⟨f, hf, -⟩ := h.frame hv
  have hread : s.rx.readAll 0 s.rxLen = some f := by simpa [State.rxFrame, hv] using hf
  have hlen : 10 + 24 ≤ s.rxLen := by unfold State.rxLen; omega
  obtain ⟨p, hp, -⟩ := exists_record_of_readAll (Memory.readAll_take_drop hread (k := hdrSize) hlen)
  exact ⟨p, by simpa only [Nat.zero_add] using hp⟩

theorem FscInv.exists_execDecode_eq_next : ∃ t, execDecode s = .next t := by
  cases hv : s.rxValid with
  | false => exact ⟨_, execDecode_of_noFrame hv⟩
  | true =>
    obtain hn | hn := Nat.lt_or_ge s.rxn.toNat 34
    · exact ⟨_, execDecode_of_short hv hn⟩
    · obtain ⟨p, hp⟩ := h.hasRecord_rx hv hn
      exact ⟨_, execDecode_of_record hv hn hp⟩

theorem FscInv.exists_execEncode_eq_next : ∃ t, execEncode s = .next t := by
  cases hb : s.baseValid with
  | false => exact ⟨_, execEncode_of_noBaseline hb⟩
  | true =>
    obtain ⟨p, hp⟩ := h.base hb
    exact ⟨_, execEncode_of_record hb hp⟩

/-- BUILD has its payload, or TXP_VALID is clear and it says so (43_framer_control.md R210). -/
theorem FscInv.exists_exec_build_eq_next (pl : Bool) (ty a0 a1 : Byte) :
    ∃ t, Machine.exec (.build pl ty a0 a1) s = .next t := by
  by_cases hv : pl = true → s.txpValid = true
  · obtain ⟨payload, hpayload⟩ := h.exists_buildPayload hv
    exact ⟨_, hpayload.exec_build h.config ty a0 a1⟩
  · obtain ⟨rfl, hv⟩ := Classical.not_imp.1 hv
    exact ⟨_, buildRefusesWithoutAPayload s ty a0 a1 (by simpa using hv)⟩

theorem FscInv.exists_exec_eq_next (i : Instr) : ∃ t, Machine.exec i s = .next t := by
  cases i with
  | nop => exact ⟨_, rfl⟩
  | feed b =>
    obtain ⟨t, hstep⟩ := h.exists_feedStep b
    exact ⟨t, execFeed_of_feedStep hstep⟩
  | tick => exact ⟨_, rfl⟩
  | hunt => exact ⟨_, rfl⟩
  | setcfg bs don ce => exact ⟨_, rfl⟩
  | setint w => exact exists_execSetint_eq_next w s
  | clrint => exact ⟨_, rfl⟩
  | decode => exact h.exists_execDecode_eq_next
  | encode => exact h.exists_execEncode_eq_next
  | build pl ty a0 a1 => exact h.exists_exec_build_eq_next pl ty a0 a1
  | reset => exact ⟨_, rfl⟩
  | reservedB x => exact ⟨_, rfl⟩
  | reservedC x => exact ⟨_, rfl⟩
  | reservedD x => exact ⟨_, rfl⟩
  | reservedE x => exact ⟨_, rfl⟩
  | reservedF x => exact ⟨_, rfl⟩

/-- A step holds the state, runs a command, or meets an ILLEGAL word; the invariant does not speak of the port. -/
theorem FscInv.exists_step_eq_next : ∃ t, Machine.step s = .next t := by
  cases hp : s.port with
  | nil => exact ⟨s, step_of_port_nil hp⟩
  | cons w rest =>
    rw [step_of_port_cons hp]
    cases hd : Sys2Proof.decode w with
    | error e => exact ⟨_, stepWord_of_decode_error hd _⟩
    | ok i =>
      rw [stepWord_of_decode hd]
      exact (h.withPort rest).exists_exec_eq_next i

end

/-- Settles O58: each command completes by its own lemma, and the step by the command its word decodes to. -/
theorem noCommandEverStopsTheMachine : Obligations.NoCommandEverStopsTheMachine :=
  fun _ hs => ⟨hs.exists_exec_eq_next, hs.exists_step_eq_next⟩

end Sys2Proof.Machine
end
